-- ==== Sys2Proof/Word.lean ====
section
/-! DEFINITION. The word types of ECC200-CORE (spec/00_scope.md R9): every value is an unsigned number of a fixed
width, and bit 0 is its least significant bit. -/

namespace Sys2Proof

/-- A byte, also a field element of GF(256) (R9, R12). -/
abbrev Byte := BitVec 8

/-- A length, count, offset, stride, index or register value: `LW` = 16 bits (R7, R9). -/
abbrev Len := BitVec 16

/-- A command word or a response word: 32 bits (R7, R90, R97). -/
abbrev Word := BitVec 32

/-- A register number: 8 bits (R28). -/
abbrev RegNum := BitVec 8

end Sys2Proof
end

