-- ==== Sys2Proof/Syntax.lean ====
section
/-! DEFINITION. The ten commands of ECC200-CORE (spec/30_encoding.md R93), one constructor per row of
spec/opcode_table.json, and the five pseudo-instructions (R100). The operands are bit vectors of exactly the width
of their field in the command word (R91), used as the unsigned numbers their bits spell (R92). -/

namespace Sys2Proof

/-- A command (R2: "instruction" means command). -/
inductive Instr where
  /-- `GFMUL a, b`: multiply two field elements (R121). -/
  | gfmul (a b : Byte)
  /-- `GENFIND n`: select the catalog entry of length `n` (R141). -/
  | genfind (n : Len)
  /-- `GENRD k`: read coefficient `k` of the selected entry (R143). -/
  | genrd (k : Len)
  /-- `ECCBLK`: one block computation on the parameter registers (R164). -/
  | eccblk
  /-- `ENCODE`: check, grow and encode the buffer on the descriptor registers (R181). -/
  | encode
  /-- `WRREG r, v`: write a register (R200). -/
  | wrreg (r : RegNum) (v : Len)
  /-- `RDREG r`: read a register (R201). -/
  | rdreg (r : RegNum)
  /-- `BUFCLR`: make the buffer empty (R202). -/
  | bufclr
  /-- `BUFPUSH v8`: append one byte to the buffer (R203). -/
  | bufpush (v8 : Byte)
  /-- `BUFRD i`: read one byte of the buffer (R204). -/
  | bufrd (i : Len)
deriving DecidableEq, Repr

/-- A pseudo-instruction of the assembler (R100). Its operands are numbers as the programmer writes them (R99);
`Pseudo.wf` says which of them have an expansion. -/
inductive Pseudo where
  /-- `LOADBUF v0, v1, ..., v(n-1)`. -/
  | loadbuf (vs : List Nat)
  /-- `SETDESC dcap, cwcnt, nblk, errcw, blkerr`. -/
  | setdesc (dcap cwcnt nblk errcw blkerr : Nat)
  /-- `SETBLK m, len`. -/
  | setblk (m len : Nat)
  /-- `SETPARAM codeoff, codelen, eccoff, ecclen, stride`. -/
  | setparam (codeoff codelen eccoff ecclen stride : Nat)
  /-- `DUMPBUF n`. -/
  | dumpbuf (n : Nat)
deriving DecidableEq, Repr

end Sys2Proof
end

