-- ==== Sys2Proof/WellFormed.lean ====
section
/-! DEFINITION. Which words are commands and which pseudo-instructions have an expansion. An `Instr` needs no check:
its operands have exactly the width of their field, so every `Instr` is well formed. A WORD is well formed when it
matches a row of spec/30_encoding.md R93; a pseudo-instruction when its numbers fit the fields of R91. -/

namespace Sys2Proof

/-- The six command formats (R91). -/
inductive Format where
  /-- No operand. -/
  | z
  /-- A 16-bit `imm`. -/
  | i
  /-- Two bytes `b`, `a`. -/
  | m
  /-- A register number `r` and a 16-bit value `v`. -/
  | w
  /-- A register number `r`. -/
  | q
  /-- One byte `v8`. -/
  | p
deriving DecidableEq, Repr

/-- The `mask` column of R93. -/
def Format.mask : Format → Word
  | .z => 0xFFFFFFFF#32
  | .i => 0xFFFF0000#32
  | .m => 0xFFFF0000#32
  | .w => 0xFF000000#32
  | .q => 0xFF00FFFF#32
  | .p => 0xFFFFFF00#32

/-- A row of the opcode map (R93): mnemonic, format and `match` column. -/
structure Row where
  mnemonic : String
  format : Format
  matchWord : Word
deriving DecidableEq, Repr

/-- The ten rows of R93. -/
def rows : List Row :=
  [ ⟨"GFMUL", .m, 0x01000000#32⟩, ⟨"GENFIND", .i, 0x02000000#32⟩, ⟨"GENRD", .i, 0x03000000#32⟩,
    ⟨"ECCBLK", .z, 0x04000000#32⟩, ⟨"ENCODE", .z, 0x05000000#32⟩, ⟨"WRREG", .w, 0x10000000#32⟩,
    ⟨"RDREG", .q, 0x11000000#32⟩, ⟨"BUFCLR", .z, 0x12000000#32⟩, ⟨"BUFPUSH", .p, 0x13000000#32⟩,
    ⟨"BUFRD", .i, 0x14000000#32⟩ ]

/-- "A word `cmd` is the command of a row exactly when `cmd AND mask = match`" (R93). -/
def Row.covers (row : Row) (w : Word) : Bool := (w &&& row.format.mask) == row.matchWord

/-- The word matches some row of R93; every other word is illegal (R95). -/
def WellFormed.word (w : Word) : Bool := rows.any fun row => row.covers w

/-- The number fits a byte field. -/
def WellFormed.byte (v : Nat) : Bool := decide (v < 2 ^ 8)

/-- The number fits a 16-bit field. -/
def WellFormed.len (v : Nat) : Bool := decide (v < 2 ^ 16)

/-- The pseudo-instruction's numbers fit the fields of the commands it expands to (R91, R100), and the block number
of `SETBLK` is that of a `BLKDATA` register (R28). -/
def Pseudo.wf (nblkMax : Nat) : Pseudo → Bool
  | .loadbuf vs => vs.all WellFormed.byte
  | .setdesc a b c d e => [a, b, c, d, e].all WellFormed.len
  | .setblk m len => decide (1 ≤ m) && decide (m ≤ nblkMax) && WellFormed.len len
  | .setparam a b c d e => [a, b, c, d, e].all WellFormed.len
  | .dumpbuf n => decide (n ≤ 2 ^ 16)

end Sys2Proof
end

