-- ==== Sys2Proof/Decode.lean ====
section
/-! DEFINITION. The decoder, total on any 32-bit word and rejecting by name (spec/30_encoding.md R94 to R96), the
encoder written from the same formats (R91), the assembler's spelling (R99) and the expansion of the
pseudo-instructions (R100). -/

namespace Sys2Proof

/-- Why a word is no command (R95). -/
inductive DecodeError where
  /-- The opcode is none of the ten (R95). -/
  | unassignedOpcode (op : BitVec 8)
  /-- The opcode is one of the ten and a must-be-zero bit of its format is 1 (R94). -/
  | reservedBits (op : BitVec 8)
deriving DecidableEq, Repr

/-- `cmd[31:24]`, the opcode (R90). -/
def opField (w : Word) : BitVec 8 := w.extractLsb' 24 8

/-- `cmd[23:16]`: the register number `r` of formats W and Q (R91). -/
def hiField (w : Word) : BitVec 8 := w.extractLsb' 16 8

/-- `cmd[15:8]`: the byte `b` of format M (R91). -/
def midField (w : Word) : BitVec 8 := w.extractLsb' 8 8

/-- `cmd[7:0]`: the byte `a` of format M and `v8` of format P (R91). -/
def loField (w : Word) : BitVec 8 := w.extractLsb' 0 8

/-- `cmd[15:0]`: `imm` of format I and `v` of format W (R91). -/
def immField (w : Word) : BitVec 16 := w.extractLsb' 0 16

/-- The bits that a format says must be zero are zero (the "0" cells of R91). -/
def reservedClear (f : Format) (w : Word) : Bool :=
  match f with
  | .z => hiField w == 0 && immField w == 0
  | .i => hiField w == 0
  | .m => hiField w == 0
  | .w => true
  | .q => immField w == 0
  | .p => hiField w == 0 && midField w == 0

/-- The command, unless a must-be-zero bit of its format is set (R94). -/
def accept (f : Format) (w : Word) (i : Instr) : Except DecodeError Instr :=
  if reservedClear f w then .ok i else .error (.reservedBits (opField w))

/-- The command of a word, or why it is illegal, from the word alone (R96). -/
def decode (w : Word) : Except DecodeError Instr :=
  match (opField w).toNat with
  | 0x01 => accept .m w (.gfmul (loField w) (midField w))
  | 0x02 => accept .i w (.genfind (immField w))
  | 0x03 => accept .i w (.genrd (immField w))
  | 0x04 => accept .z w .eccblk
  | 0x05 => accept .z w .encode
  | 0x10 => accept .w w (.wrreg (hiField w) (immField w))
  | 0x11 => accept .q w (.rdreg (hiField w))
  | 0x12 => accept .z w .bufclr
  | 0x13 => accept .p w (.bufpush (loField w))
  | 0x14 => accept .i w (.bufrd (immField w))
  | _ => .error (.unassignedOpcode (opField w))

/-- A command word from its four byte-aligned parts (R90, R91). -/
def packWord (op hi mid lo : BitVec 8) : Word := op ++ hi ++ mid ++ lo

/-- A command word whose low half is one 16-bit field. -/
def packImm (op hi : BitVec 8) (imm : BitVec 16) : Word := op ++ hi ++ imm

/-- The word of a command (R91, R93). -/
def encode : Instr → Word
  | .gfmul a b => packWord 0x01 0 b a
  | .genfind n => packImm 0x02 0 n
  | .genrd k => packImm 0x03 0 k
  | .eccblk => packImm 0x04 0 0
  | .encode => packImm 0x05 0 0
  | .wrreg r v => packImm 0x10 r v
  | .rdreg r => packImm 0x11 r 0
  | .bufclr => packImm 0x12 0 0
  | .bufpush v8 => packWord 0x13 0 0 v8
  | .bufrd i => packImm 0x14 0 i

/-- The mnemonic of a command (R93). -/
def Instr.mnemonic : Instr → String
  | .gfmul _ _ => "GFMUL"
  | .genfind _ => "GENFIND"
  | .genrd _ => "GENRD"
  | .eccblk => "ECCBLK"
  | .encode => "ENCODE"
  | .wrreg _ _ => "WRREG"
  | .rdreg _ => "RDREG"
  | .bufclr => "BUFCLR"
  | .bufpush _ => "BUFPUSH"
  | .bufrd _ => "BUFRD"

/-- The operands of a command in the order of R93's mnemonic column (R99). -/
def Instr.operands : Instr → List Nat
  | .gfmul a b => [a.toNat, b.toNat]
  | .genfind n => [n.toNat]
  | .genrd k => [k.toNat]
  | .eccblk => []
  | .encode => []
  | .wrreg r v => [r.toNat, v.toNat]
  | .rdreg r => [r.toNat]
  | .bufclr => []
  | .bufpush v8 => [v8.toNat]
  | .bufrd i => [i.toNat]

/-- A listing line: the mnemonic in capitals, then the operands in decimal, separated by commas; a register operand
is written by its number (R99). -/
def Instr.asm (i : Instr) : String :=
  match i.operands with
  | [] => i.mnemonic
  | vs => i.mnemonic ++ " " ++ ", ".intercalate (vs.map toString)

/-- The commands a pseudo-instruction stands for, in order (R100). -/
def Pseudo.expand : Pseudo → List Instr
  | .loadbuf vs => .bufclr :: vs.map fun v => .bufpush (BitVec.ofNat 8 v)
  | .setdesc dcap cwcnt nblk errcw blkerr =>
    [ .wrreg 0x08 (BitVec.ofNat 16 dcap), .wrreg 0x09 (BitVec.ofNat 16 cwcnt), .wrreg 0x0A (BitVec.ofNat 16 nblk),
      .wrreg 0x0B (BitVec.ofNat 16 errcw), .wrreg 0x0C (BitVec.ofNat 16 blkerr) ]
  | .setblk m len => [.wrreg (BitVec.ofNat 8 (0x20 + m - 1)) (BitVec.ofNat 16 len)]
  | .setparam codeoff codelen eccoff ecclen stride =>
    [ .wrreg 0x10 (BitVec.ofNat 16 codeoff), .wrreg 0x11 (BitVec.ofNat 16 codelen),
      .wrreg 0x12 (BitVec.ofNat 16 eccoff), .wrreg 0x13 (BitVec.ofNat 16 ecclen),
      .wrreg 0x14 (BitVec.ofNat 16 stride) ]
  | .dumpbuf n => (List.range n).map fun i => .bufrd (BitVec.ofNat 16 i)

/-- The command of an opcode-table word given as a number, bit 0 its least significant bit; the bits above `nbits`
are 0. A command word is handed over whole and has no byte order (R66, R90). -/
def decodeTableWord (nbits w : Nat) : Option Instr := (decode (BitVec.ofNat 32 (w % 2 ^ nbits))).toOption

end Sys2Proof
end

