-- ==== Sys2Proof/Config.lean ====
section
/-! DEFINITION. The configuration of an instance of ECC200-CORE: what the document fixes (spec/00_scope.md R6) and
the four open parameters a model takes as an argument (R8). The default contents stand in `Machine/Rom.lean`. -/

namespace Sys2Proof.Config

/-- The open parameter `FIELD` (R8): the discrete-log ROM and the discrete-antilog ROM (R21), address 0 first. -/
structure FieldTables where
  /-- `LOG`, 256 words; the word at address 0 is a sentinel and no rule reads it. -/
  log : List Byte
  /-- `ALOG`, 255 words. -/
  alog : List Byte
deriving DecidableEq, Repr

/-- The four open parameters of R8. They are configuration, not state (R20, R42): no command and no reset changes
them (R23). -/
structure Params where
  /-- `BUF_MAX`, capacity of the buffer RAM in bytes. -/
  bufMax : Nat
  /-- `NBLK_MAX`, number of `BLKDATA` registers. -/
  nblkMax : Nat
  /-- `FIELD`, the pair of tables `LOG`, `ALOG`. -/
  field : FieldTables
  /-- `GEN`, the 16 coefficient vectors of the catalog, constant term first (R22). -/
  gen : List (List Byte)
deriving DecidableEq, Repr

/-- `GENLEN`: the 16 catalog lengths, fixed by the document (R6, R22). -/
def genLen : List Nat := [5, 7, 10, 11, 12, 14, 18, 20, 24, 28, 36, 42, 48, 56, 62, 68]

/-- The order of the multiplicative group: log sums are reduced modulo 255 (R6). -/
def groupOrder : Nat := 255

/-- The depth of the LFSR register file, the largest catalog length (R6, R26). -/
def lfsrDepth : Nat := 68

end Sys2Proof.Config
end

