-- ==== Sys2Proof/Machine/Rom.lean ====
section
/-! DEFINITION. The default contents of the open parameters (spec/00_scope.md R8): the field tables of
spec/41_gf256_multiply.md R126 and R127 and the catalog of spec/42_generator_catalog.md R147, which the spec supplies
from general knowledge (notes/assumptions/4.md to 7.md, PRESUMED), and what makes a choice of parameters legal
(R8, R21, R22). -/

namespace Sys2Proof.Machine

open Sys2Proof.Config

/-- Multiplication by `x` modulo `p`: shift left one bit, and reduce when bit 8 is set (R125, R128). -/
def xtimes (p : BitVec 9) (v : Byte) : Byte :=
  if v.msb then ((v.setWidth 9 <<< 1) ^^^ p).setWidth 8 else v <<< 1

/-- The shift-and-reduce product of two bytes as polynomials modulo `p` (R128). -/
def polyMul (p : BitVec 9) (a b : Byte) : Byte :=
  [7, 6, 5, 4, 3, 2, 1, 0].foldl (fun acc t => xtimes p acc ^^^ (if b.getLsbD t then a else 0)) 0

/-- `α^0, α^1, ..., α^(k-1)` modulo `p`, from `v` = `α^0` on (R21, R125). -/
def powersFrom (p : BitVec 9) (α : Byte) : Nat → Byte → List Byte
  | 0, _ => []
  | k + 1, v => v :: powersFrom p α k (polyMul p v α)

/-- The 255 powers of `α` modulo `p`, `α^0` = 1 first. -/
def powers (p : BitVec 9) (α : Byte) : List Byte := powersFrom p α groupOrder 1

/-- The 255 words are pairwise different and none is 0 (R128): `α` has order 255. -/
def allNonzeroOnce (ws : List Byte) : Prop := ws.length = 255 ∧ ws.Nodup ∧ (0 : Byte) ∉ ws

/-- `p` is a primitive polynomial of degree 8 over GF(2): bit 8 is set and `x` has order 255 (R21). -/
def PrimitivePoly (p : BitVec 9) : Prop := p.msb = true ∧ allNonzeroOnce (powers p 2)

/-- The constraint on the open parameter `FIELD` (R21): the tables are inverse of each other, and `ALOG` holds the
powers of a primitive element `α` modulo a primitive polynomial `p`. The sentinel `LOG[0]` is 255 (R7). -/
structure FieldLegal (F : FieldTables) : Prop where
  logLength : F.log.length = 256
  sentinel : F.log[0]? = some 255
  alogOnce : allNonzeroOnce F.alog
  logOfAlog : ∀ i < 255, F.log[(F.alog.getD i 0).toNat]? = some (BitVec.ofNat 8 i)
  alogOfLog : ∀ e : Byte, e ≠ 0 → F.alog[(F.log.getD e.toNat 0).toNat]? = some e
  powersOfAlpha : ∃ p α, PrimitivePoly p ∧ F.alog = powers p α

/-- The constraint on the open parameter `GEN` (R8, R22): 16 entries, that of length `n` with exactly `n`
coefficients. -/
def GenLegal (gen : List (List Byte)) : Prop := gen.map List.length = genLen

/-- The constraints on the four open parameters (R8). -/
structure ParamsLegal (P : Params) : Prop where
  bufMax : 1 ≤ P.bufMax ∧ P.bufMax ≤ 65535
  nblkMax : 1 ≤ P.nblkMax ∧ P.nblkMax ≤ 224
  field : FieldLegal P.field
  gen : GenLegal P.gen

/-- `ALOG[0]` first, a row of R126 a line. -/
def Rom.alog : List Byte :=
  [ [1, 2, 4, 8, 16, 32, 64, 128, 45, 90, 180, 69, 138, 57, 114, 228],
    [229, 231, 227, 235, 251, 219, 155, 27, 54, 108, 216, 157, 23, 46, 92, 184],
    [93, 186, 89, 178, 73, 146, 9, 18, 36, 72, 144, 13, 26, 52, 104, 208],
    [141, 55, 110, 220, 149, 7, 14, 28, 56, 112, 224, 237, 247, 195, 171, 123],
    [246, 193, 175, 115, 230, 225, 239, 243, 203, 187, 91, 182, 65, 130, 41, 82],
    [164, 101, 202, 185, 95, 190, 81, 162, 105, 210, 137, 63, 126, 252, 213, 135],
    [35, 70, 140, 53, 106, 212, 133, 39, 78, 156, 21, 42, 84, 168, 125, 250],
    [217, 159, 19, 38, 76, 152, 29, 58, 116, 232, 253, 215, 131, 43, 86, 172],
    [117, 234, 249, 223, 147, 11, 22, 44, 88, 176, 77, 154, 25, 50, 100, 200],
    [189, 87, 174, 113, 226, 233, 255, 211, 139, 59, 118, 236, 245, 199, 163, 107],
    [214, 129, 47, 94, 188, 85, 170, 121, 242, 201, 191, 83, 166, 97, 194, 169],
    [127, 254, 209, 143, 51, 102, 204, 181, 71, 142, 49, 98, 196, 165, 103, 206],
    [177, 79, 158, 17, 34, 68, 136, 61, 122, 244, 197, 167, 99, 198, 161, 111],
    [222, 145, 15, 30, 60, 120, 240, 205, 183, 67, 134, 33, 66, 132, 37, 74],
    [148, 5, 10, 20, 40, 80, 160, 109, 218, 153, 31, 62, 124, 248, 221, 151],
    [3, 6, 12, 24, 48, 96, 192, 173, 119, 238, 241, 207, 179, 75, 150] ].flatten

/-- `LOG[0]` first, a row of R127 a line. -/
def Rom.log : List Byte :=
  [ [255, 0, 1, 240, 2, 225, 241, 53, 3, 38, 226, 133, 242, 43, 54, 210],
    [4, 195, 39, 114, 227, 106, 134, 28, 243, 140, 44, 23, 55, 118, 211, 234],
    [5, 219, 196, 96, 40, 222, 115, 103, 228, 78, 107, 125, 135, 8, 29, 162],
    [244, 186, 141, 180, 45, 99, 24, 49, 56, 13, 119, 153, 212, 199, 235, 91],
    [6, 76, 220, 217, 197, 11, 97, 184, 41, 36, 223, 253, 116, 138, 104, 193],
    [229, 86, 79, 171, 108, 165, 126, 145, 136, 34, 9, 74, 30, 32, 163, 84],
    [245, 173, 187, 204, 142, 81, 181, 190, 46, 88, 100, 159, 25, 231, 50, 207],
    [57, 147, 14, 67, 120, 128, 154, 248, 213, 167, 200, 63, 236, 110, 92, 176],
    [7, 161, 77, 124, 221, 102, 218, 95, 198, 90, 12, 152, 98, 48, 185, 179],
    [42, 209, 37, 132, 224, 52, 254, 239, 117, 233, 139, 22, 105, 27, 194, 113],
    [230, 206, 87, 158, 80, 189, 172, 203, 109, 175, 166, 62, 127, 247, 146, 66],
    [137, 192, 35, 252, 10, 183, 75, 216, 31, 83, 33, 73, 164, 144, 85, 170],
    [246, 65, 174, 61, 188, 202, 205, 157, 143, 169, 82, 72, 182, 215, 191, 251],
    [47, 178, 89, 151, 101, 94, 160, 123, 26, 112, 232, 21, 51, 238, 208, 131],
    [58, 69, 148, 18, 15, 16, 68, 17, 121, 149, 129, 19, 155, 59, 249, 70],
    [214, 250, 168, 71, 201, 156, 64, 60, 237, 130, 111, 20, 93, 122, 177, 150] ].flatten

/-- Catalog entry 0, length 5, constant term first (R147). -/
def Rom.gen0 : List Byte :=
  [228, 48, 15, 111, 62]

/-- Catalog entry 1, length 7, constant term first (R147). -/
def Rom.gen1 : List Byte :=
  [23, 68, 144, 134, 240, 92, 254]

/-- Catalog entry 2, length 10, constant term first (R147). -/
def Rom.gen2 : List Byte :=
  [28, 24, 185, 166, 223, 248, 116, 255, 110, 61]

/-- Catalog entry 3, length 11, constant term first (R147). -/
def Rom.gen3 : List Byte :=
  [175, 138, 205, 12, 194, 168, 39, 245, 60, 97, 120]

/-- Catalog entry 4, length 12, constant term first (R147). -/
def Rom.gen4 : List Byte :=
  [41, 153, 158, 91, 61, 42, 142, 213, 97, 178, 100, 242]

/-- Catalog entry 5, length 14, constant term first (R147). -/
def Rom.gen5 : List Byte :=
  [156, 97, 192, 252, 95, 9, 157, 119, 138, 45, 18, 186, 83, 185]

/-- Catalog entry 6, length 18, constant term first (R147). -/
def Rom.gen6 : List Byte :=
  [ [83, 195, 100, 39, 188, 75, 66, 61, 241, 213, 109, 129, 94, 254, 225, 48],
    [90, 188] ].flatten

/-- Catalog entry 7, length 20, constant term first (R147). -/
def Rom.gen7 : List Byte :=
  [ [15, 195, 244, 9, 233, 71, 168, 2, 188, 160, 153, 145, 253, 79, 108, 82],
    [27, 174, 186, 172] ].flatten

/-- Catalog entry 8, length 24, constant term first (R147). -/
def Rom.gen8 : List Byte :=
  [ [52, 190, 88, 205, 109, 39, 176, 21, 155, 197, 251, 223, 155, 21, 5, 172],
    [254, 124, 12, 181, 184, 96, 50, 193] ].flatten

/-- Catalog entry 9, length 28, constant term first (R147). -/
def Rom.gen9 : List Byte :=
  [ [211, 231, 43, 97, 71, 96, 103, 174, 37, 151, 170, 53, 75, 34, 249, 121],
    [17, 138, 110, 213, 141, 136, 120, 151, 233, 168, 93, 255] ].flatten

/-- Catalog entry 10, length 36, constant term first (R147). -/
def Rom.gen10 : List Byte :=
  [ [245, 127, 242, 218, 130, 250, 162, 181, 102, 120, 84, 179, 220, 251, 80, 182],
    [229, 18, 2, 4, 68, 33, 101, 137, 95, 119, 115, 44, 175, 184, 59, 25],
    [225, 98, 81, 112] ].flatten

/-- Catalog entry 11, length 42, constant term first (R147). -/
def Rom.gen11 : List Byte :=
  [ [77, 193, 137, 31, 19, 38, 22, 153, 247, 105, 122, 2, 245, 133, 242, 8],
    [175, 95, 100, 9, 167, 105, 214, 111, 57, 121, 21, 1, 253, 57, 54, 101],
    [248, 202, 69, 50, 150, 177, 226, 5, 9, 5] ].flatten

/-- Catalog entry 12, length 48, constant term first (R147). -/
def Rom.gen12 : List Byte :=
  [ [245, 132, 172, 223, 96, 32, 117, 22, 238, 133, 238, 231, 205, 188, 237, 87],
    [191, 106, 16, 147, 118, 23, 37, 90, 170, 205, 131, 88, 120, 100, 66, 138],
    [186, 240, 82, 44, 176, 87, 187, 147, 160, 175, 69, 213, 92, 253, 225, 19] ].flatten

/-- Catalog entry 13, length 56, constant term first (R147). -/
def Rom.gen13 : List Byte :=
  [ [175, 9, 223, 238, 12, 17, 220, 208, 100, 29, 175, 170, 230, 192, 215, 235],
    [150, 159, 36, 223, 38, 200, 132, 54, 228, 146, 218, 234, 117, 203, 29, 232],
    [144, 238, 22, 150, 201, 117, 62, 207, 164, 13, 137, 245, 127, 67, 247, 28],
    [155, 43, 203, 107, 233, 53, 143, 46] ].flatten

/-- Catalog entry 14, length 62, constant term first (R147). -/
def Rom.gen14 : List Byte :=
  [ [242, 93, 169, 50, 144, 210, 39, 118, 202, 188, 201, 189, 143, 108, 196, 37],
    [185, 112, 134, 230, 245, 63, 197, 190, 250, 106, 185, 221, 175, 64, 114, 71],
    [161, 44, 147, 6, 27, 218, 51, 63, 87, 10, 40, 130, 188, 17, 163, 31],
    [176, 170, 4, 107, 232, 7, 94, 166, 224, 124, 86, 47, 11, 204] ].flatten

/-- Catalog entry 15, length 68, constant term first (R147). -/
def Rom.gen15 : List Byte :=
  [ [220, 228, 173, 89, 251, 149, 159, 56, 89, 33, 147, 244, 154, 36, 73, 127],
    [213, 136, 248, 180, 234, 197, 158, 177, 68, 122, 93, 213, 15, 160, 227, 236],
    [66, 139, 153, 185, 202, 167, 179, 25, 220, 232, 96, 210, 231, 136, 223, 239],
    [181, 241, 59, 52, 172, 25, 49, 232, 211, 189, 64, 54, 108, 153, 132, 63],
    [96, 103, 82, 186] ].flatten

/-- The catalog of R147. -/
def Rom.gen : List (List Byte) :=
  [Rom.gen0, Rom.gen1, Rom.gen2, Rom.gen3, Rom.gen4, Rom.gen5, Rom.gen6, Rom.gen7,
   Rom.gen8, Rom.gen9, Rom.gen10, Rom.gen11, Rom.gen12, Rom.gen13, Rom.gen14, Rom.gen15]

/-- The parameters the spec's test vectors use (R8, default column). -/
def Rom.defaults : Params where
  bufMax := 2178
  nblkMax := 10
  field := { log := Rom.log, alog := Rom.alog }
  gen := Rom.gen

end Sys2Proof.Machine
end

