-- ==== Sys2Proof/Machine/State.lean ====
section
/-! DEFINITION. The state of one instance of ECC200-CORE (spec/10_state.md R20), the host's commands still to be
presented and the responses returned (R42; notes/assumptions/2.md), and the reset values (R45). -/

namespace Sys2Proof.Machine

open Sys2Proof.Config

/-- The codeword buffer `BUF[0 .. BUFLEN-1]` as a sequence of `BUFLEN` bytes, index 0 first (R24). Its length IS
`BUFLEN` (R25): the register is stored once. -/
abbrev Memory := List Byte

/-- The causes of a spec fault (R224). -/
inductive FaultCause where
  /-- Cause 1: the word matches no row of R93. -/
  | illegalCommand
  /-- Cause 2: a write to a read-only or unimplemented register, a read of an unimplemented one. -/
  | registerAccess
  /-- Cause 3: the buffer would exceed `BUF_MAX` bytes. -/
  | bufferCapacity
  /-- Cause 4: an index at or beyond the end of what is indexed. -/
  | indexRange
  /-- Cause 5: a register value the command cannot work with. -/
  | operandRange
deriving DecidableEq, Repr

/-- The documented errors with their diagnostic payload (R220). -/
inductive DocError where
  /-- Kind 1: the buffer's length is not the declared data capacity. -/
  | codewordCountMismatch (expected actual : Len)
  /-- Kind 2: the catalog has no entry of the requested length. -/
  | unsupportedRedundancyLength (requested : Len)
deriving DecidableEq, Repr

/-- The descriptor registers (R29). -/
structure Desc where
  /-- `DCAP` = `dataCapacity()`. -/
  dcap : Len
  /-- `CWCNT` = `codewordCount()`. -/
  cwcnt : Len
  /-- `NBLK` = `interleavedBlockCount()`. -/
  nblk : Len
  /-- `ERRCW` = `errorCodewords()`. -/
  errcw : Len
  /-- `BLKERR` = `errorLengthForInterleavedBlock()`. -/
  blkerr : Len
  /-- `BLKDATA[1..NBLK_MAX]` = `dataLengthForInterleavedBlock(m)`, `m` = 1 first. -/
  blkdata : List Len
deriving DecidableEq, Repr

/-- The parameter registers of `ECCBLK` (R30). -/
structure BlockParams where
  /-- `P_CODEOFF`. -/
  codeOff : Len
  /-- `P_CODELEN`. -/
  codeLen : Len
  /-- `P_ECCOFF`. -/
  eccOff : Len
  /-- `P_ECCLEN`. -/
  eccLen : Len
  /-- `P_STRIDE`. -/
  stride : Len
deriving DecidableEq, Repr

/-- What the outside world does to an instance, one at a time and between commands (R42, R250, R257). -/
inductive HostInput where
  /-- The host presents a command word (R90). -/
  | command (w : Word)
  /-- The environment resets the instance (R250). -/
  | reset
deriving DecidableEq, Repr

/-- The state of one instance (R20), with the command stream and the responses of R42 as the model's own fields. -/
structure State where
  /-- The descriptor registers `DCAP` to `BLKDATA[NBLK_MAX]` (R29). -/
  desc : Desc
  /-- The parameter registers `P_CODEOFF` to `P_STRIDE` (R30). -/
  param : BlockParams
  /-- `BUF` and `BUFLEN` (R24, R25). -/
  buf : Memory
  /-- `R[0..67]`, the hidden LFSR register file, `R[0]` first (R26, R27). -/
  lfsr : List Byte
  /-- `RES` (R32). -/
  res : Byte
  /-- `GSEL`: bit 15 `GVALID`, bits [3:0] `GIDX` (R33). -/
  gsel : Len
  /-- `GLEN` (R33). -/
  glen : Len
  /-- `STATUS`: bits [1:0] `ERRKIND` (R34). -/
  status : Len
  /-- `ERRINFO0` (R35). -/
  errinfo0 : Len
  /-- `ERRINFO1` (R35). -/
  errinfo1 : Len
  /-- `FAULT` (R36). -/
  fault : Bool
  /-- `FCAUSE` (R36). -/
  fcause : BitVec 3
  /-- The model's own: what the host and the environment will do next, soonest first (R42; log 2). -/
  inputs : List HostInput
  /-- The model's own: the response words returned so far, newest first (R42, R97; log 2). -/
  responses : List Word
deriving DecidableEq, Repr

/-- The ways this machine could stop with the host's `fault`: none. Every fault and every documented error of the
spec is a next state (R226, R227; log 11), and every command ends (R189). Nothing raises one: safe. -/
inductive Fault where
deriving DecidableEq, Repr

/-- The ways an instruction could be left without a meaning. -/
inductive Refusal where
  /-- `exec` has no meaning yet for the instruction of this mnemonic. Raised by no arm: every command of R93 has its
  meaning. It would be safe: the model stops where the hardware goes on. -/
  | notModelled (mnemonic : String)
deriving DecidableEq, Repr

/-- The state after reset for any choice of the open parameters (R45). `lfsr` is the one value R45 leaves
"unspecified and unobservable": zero here, DESIGN CHOICE, log 1. `inputs` and `responses` are the model's own: empty,
DESIGN CHOICE, log 2. -/
def State.resetFor (P : Params) : State where
  desc := { dcap := 0, cwcnt := 0, nblk := 0, errcw := 0, blkerr := 0, blkdata := List.replicate P.nblkMax 0 }
  param := { codeOff := 0, codeLen := 0, eccOff := 0, eccLen := 0, stride := 0 }
  buf := []
  lfsr := List.replicate lfsrDepth 0
  res := 0
  gsel := 0
  glen := 0
  status := 0
  errinfo0 := 0
  errinfo1 := 0
  fault := false
  fcause := 0
  inputs := []
  responses := []

/-- The state after reset with the default parameters (R8, R45). -/
def State.reset : State := State.resetFor Rom.defaults

end Sys2Proof.Machine
end

