-- ==== Sys2Proof/Machine/Flags.lean ====
section
/-! DEFINITION. The flags of ECC200-CORE: `STATUS.ERRKIND` with `ERRINFO0`, `ERRINFO1` (spec/10_state.md R34, R35),
and the codes of the documented errors and of the fault causes (spec/60_exceptions.md R220, R224). -/

namespace Sys2Proof.Machine

/-- `ERRKIND` of a documented error (R34, R220). -/
def DocError.kind : DocError → Len
  | .codewordCountMismatch _ _ => 1
  | .unsupportedRedundancyLength _ => 2

/-- What `ERRINFO0` gets: the expected length, or the requested one (R35). -/
def DocError.info0 : DocError → Len
  | .codewordCountMismatch expected _ => expected
  | .unsupportedRedundancyLength requested => requested

/-- What `ERRINFO1` gets: the actual length, or 0 (R35). -/
def DocError.info1 : DocError → Len
  | .codewordCountMismatch _ actual => actual
  | .unsupportedRedundancyLength _ => 0

/-- `FCAUSE` of a spec fault (R224). -/
def FaultCause.code : FaultCause → BitVec 3
  | .illegalCommand => 1
  | .registerAccess => 2
  | .bufferCapacity => 3
  | .indexRange => 4
  | .operandRange => 5

/-- The status registers after a `GENFIND`, `ECCBLK` or `ENCODE` that succeeds (R34, R35). -/
def State.recordSuccess (s : State) : State := { s with status := 0, errinfo0 := 0, errinfo1 := 0 }

/-- The status registers after one that ends in a documented error (R34, R35). -/
def State.recordError (e : DocError) (s : State) : State :=
  { s with status := e.kind, errinfo0 := e.info0, errinfo1 := e.info1 }

end Sys2Proof.Machine
end

