-- ==== Sys2Proof/Machine/Ops.lean ====
section
/-! DEFINITION. The shared operations of ECC200-CORE: the buffer (spec/20_memory.md, spec/10_state.md R24), the
response word (spec/30_encoding.md R97), how a command ends (spec/60_exceptions.md R226, R227) and reset
(spec/70_reset_and_hazards.md R250). -/

namespace Sys2Proof.Machine

open Sys2Proof.Config

/-! ### Bit fields -/

/-- `zext_16` of a byte (R9). -/
def zext16 (b : Byte) : Len := b.setWidth 16

/-- A length as a register value. -/
def lenOf (n : Nat) : Len := BitVec.ofNat 16 n

/-! ### The buffer -/

/-- The byte at an index, or none: `BUF[i]` for `i ≥ BUFLEN` holds no value (R24). -/
def Memory.read (m : Memory) (a : Nat) : Option Byte := m[a]?

/-- `MemRead(a, 1)` (R10), defined only for `a < BUFLEN`; every command checks that before it reads, so the 0 that
totality asks for beyond the end is no value of the machine. -/
def Memory.load (m : Memory) (a : Nat) : Byte := (Memory.read m a).getD 0

/-- `MemWrite(a, 1, v)` (R10), for `a < BUFLEN`. -/
def Memory.store (m : Memory) (a : Nat) (v : Byte) : Memory := m.set a v

/-- Append one byte: `BUF[BUFLEN] <- v ; BUFLEN <- BUFLEN + 1` (R203). -/
def Memory.push (m : Memory) (v : Byte) : Memory := m ++ [v]

/-- Grow to `c` bytes, new positions filled with 0 (R183). -/
def Memory.growTo (m : Memory) (c : Nat) : Memory := m ++ List.replicate (c - m.length) 0

/-- The buffer as (address, byte) pairs, addresses strictly rising: the canonical form of a sequence. -/
def Memory.cells (m : Memory) : List Host.Cell := m.mapIdx fun a v => (a, v)

/-- What a buffer must satisfy besides being a sequence: it fits the RAM (R24). -/
def Memory.wf (P : Params) (m : Memory) : Bool := decide (m.length ≤ P.bufMax)

/-- `BUFLEN`, register 0x06 (R25). -/
def State.buflen (s : State) : Len := lenOf s.buf.length

/-! ### The response word -/

/-- `TAG ‖ CODE ‖ 0 ‖ DATA` (R97). -/
def responseWord (tag : BitVec 2) (code : BitVec 6) (data : Len) : Word := tag ++ code ++ 0#8 ++ data

/-- An OK response (R97). -/
def okWord (data : Len) : Word := responseWord 0 0 data

/-- An ERROR response: `CODE` is the `ERRKIND`, `DATA` the value written to `ERRINFO0` (R97). -/
def errorWord (e : DocError) : Word := responseWord 1 (e.kind.setWidth 6) e.info0

/-- A FAULT response: `CODE` is the `FCAUSE`, `DATA` is 0 (R97). -/
def faultWord (fcause : BitVec 3) : Word := responseWord 2 (fcause.setWidth 6) 0

/-- The block returns a response word. -/
def State.respond (r : Word) (s : State) : State := { s with responses := r :: s.responses }

/-! ### How a command ends -/

/-- `respond OK(d)` (R10, R97). -/
def respondOk (d : Len) (s : State) : State := s.respond (okWord d)

/-- `raise <Error>(info)`: `STATUS` and `ERRINFO` written, an ERROR response, nothing else (R226). -/
def raiseError (e : DocError) (s : State) : State := (s.recordError e).respond (errorWord e)

/-- `fault <Cause>`: `FAULT` and `FCAUSE` written, a FAULT response, nothing else (R227). This is taking an
exception: there is no handler and no saved pc (R228). -/
def takeFault (c : FaultCause) (s : State) : State :=
  { s with fault := true, fcause := c.code }.respond (faultWord c.code)

/-- What every command does while `FAULT` is 1: answer FAULT with the original cause and change nothing (R227). -/
def answerFault (s : State) : State := s.respond (faultWord s.fcause)

/-- The first line of every command's pseudocode: "if FAULT then respond FAULT(FCAUSE)" (R36, R230). -/
def unlessFaulted (s : State) (after : State) : State := if s.fault then answerFault s else after

/-- A word that matches no row of R93: it faults `IllegalCommand`, unless `FAULT` is already set (R95, R230). -/
def illegalCommand (s : State) : State := unlessFaulted s (takeFault .illegalCommand s)

/-- How a computation with checks ends: with its result, with a documented error, or with a spec fault (R187). -/
inductive Ending (α : Type) where
  /-- Every check passed. -/
  | ok (a : α)
  /-- The first check that applied raises a documented error. -/
  | err (e : DocError)
  /-- The first check that applied faults. -/
  | fault (c : FaultCause)
deriving DecidableEq, Repr

/-! ### Reset and waiting -/

/-- The reset event (R250): every piece of the block's state at its value of R45. It has no response, and what the
host did before and will do after is not the block's. -/
def resetEvent (P : Params) (s : State) : State :=
  { State.resetFor P with inputs := s.inputs, responses := s.responses }

/-- With nothing presented the block waits for the next command (R251). -/
def waitForHost (s : State) : State := s

/-- The host takes the next input off its list. -/
def State.consume (rest : List HostInput) (s : State) : State := { s with inputs := rest }

/-- The host presents one more command, to be run before everything it had planned. -/
def State.present (w : Word) (s : State) : State := { s with inputs := .command w :: s.inputs }

end Sys2Proof.Machine
end

