-- ==== Sys2Proof/Machine/Operands.lean ====
section
/-! DEFINITION. The operand forms of ECC200-CORE: the register bank selected by an 8-bit number (spec/10_state.md
R28) and the one addressing mode of the engine, base plus scaled index (spec/43_block_ecc.md R163). -/

namespace Sys2Proof.Machine

open Sys2Proof.Config

/-- The registers of the bank (R28). -/
inductive Reg where
  | status
  | errinfo0
  | errinfo1
  | res
  | gsel
  | glen
  | buflen
  | dcap
  | cwcnt
  | nblk
  | errcw
  | blkerr
  | pCodeoff
  | pCodelen
  | pEccoff
  | pEcclen
  | pStride
  /-- `BLKDATA[m]`, `m` counted from 1. -/
  | blkdata (m : Nat)
deriving DecidableEq, Repr

/-- The registers with a number of their own (R28). -/
def regMap : List (RegNum × Reg) :=
  [ (0x00, .status), (0x01, .errinfo0), (0x02, .errinfo1), (0x03, .res), (0x04, .gsel), (0x05, .glen),
    (0x06, .buflen), (0x08, .dcap), (0x09, .cwcnt), (0x0A, .nblk), (0x0B, .errcw), (0x0C, .blkerr),
    (0x10, .pCodeoff), (0x11, .pCodelen), (0x12, .pEccoff), (0x13, .pEcclen), (0x14, .pStride) ]

/-- The register of a number, or none where the number is unimplemented (R28): `BLKDATA[m]` has the number
`0x20 + (m - 1)`, `m` = 1 to `NBLK_MAX`. -/
def regOf (P : Params) (r : RegNum) : Option Reg :=
  match regMap.lookup r with
  | some x => some x
  | none => if 0x20 ≤ r.toNat ∧ r.toNat < 0x20 + P.nblkMax then some (.blkdata (r.toNat - 0x20 + 1)) else none

/-- The access column of R28: RW registers are the descriptor and the parameter registers. -/
def Reg.writable : Reg → Bool
  | .status | .errinfo0 | .errinfo1 | .res | .gsel | .glen | .buflen => false
  | .dcap | .cwcnt | .nblk | .errcw | .blkerr => true
  | .pCodeoff | .pCodelen | .pEccoff | .pEcclen | .pStride => true
  | .blkdata _ => true

/-- `L(m)` = `reg[BLKDATA[m]]` for block number `m` from 1 (R180). -/
def Desc.blockData (d : Desc) (m : Nat) : Nat := (d.blkdata.getD (m - 1) 0).toNat

/-- `reg[NAME]`, the whole 16-bit value (R10, R28); the bits of `RES` above 7 read as 0 (R32). -/
def State.readReg (s : State) : Reg → Len
  | .status => s.status
  | .errinfo0 => s.errinfo0
  | .errinfo1 => s.errinfo1
  | .res => zext16 s.res
  | .gsel => s.gsel
  | .glen => s.glen
  | .buflen => s.buflen
  | .dcap => s.desc.dcap
  | .cwcnt => s.desc.cwcnt
  | .nblk => s.desc.nblk
  | .errcw => s.desc.errcw
  | .blkerr => s.desc.blkerr
  | .pCodeoff => s.param.codeOff
  | .pCodelen => s.param.codeLen
  | .pEccoff => s.param.eccOff
  | .pEcclen => s.param.eccLen
  | .pStride => s.param.stride
  | .blkdata m => s.desc.blkdata.getD (m - 1) 0

/-- `reg[NAME] <- v` for a read-write register (R10, R200). A read-only register has no write: `WRREG` faults before
it comes here. -/
def State.writeReg (s : State) (v : Len) : Reg → State
  | .dcap => { s with desc := { s.desc with dcap := v } }
  | .cwcnt => { s with desc := { s.desc with cwcnt := v } }
  | .nblk => { s with desc := { s.desc with nblk := v } }
  | .errcw => { s with desc := { s.desc with errcw := v } }
  | .blkerr => { s with desc := { s.desc with blkerr := v } }
  | .pCodeoff => { s with param := { s.param with codeOff := v } }
  | .pCodelen => { s with param := { s.param with codeLen := v } }
  | .pEccoff => { s with param := { s.param with eccOff := v } }
  | .pEcclen => { s with param := { s.param with eccLen := v } }
  | .pStride => { s with param := { s.param with stride := v } }
  | .blkdata m => { s with desc := { s.desc with blkdata := s.desc.blkdata.set (m - 1) v } }
  | .status | .errinfo0 | .errinfo1 | .res | .gsel | .glen | .buflen => s

/-- `base + t · stride`, in natural numbers that never wrap (R163, R10). -/
def stridedIndex (base stride t : Nat) : Nat := base + t * stride

end Sys2Proof.Machine
end

