-- ==== Sys2Proof/Machine/HostAccess.lean ====
section
/-! DEFINITION. The host-access commands `WRREG`, `RDREG`, `BUFCLR`, `BUFPUSH`, `BUFRD` (spec/45_host_access.md). -/

namespace Sys2Proof.Machine

open Sys2Proof.Config

/-- `WRREG r, v` (R200). -/
def wrregCommand (P : Params) (r : RegNum) (v : Len) (s : State) : State :=
  unlessFaulted s <|
    match regOf P r with
    | some x => if x.writable then respondOk 0 (s.writeReg v x) else takeFault .registerAccess s
    | none => takeFault .registerAccess s

/-- `RDREG r` (R201). -/
def rdregCommand (P : Params) (r : RegNum) (s : State) : State :=
  unlessFaulted s <|
    match regOf P r with
    | some x => respondOk (s.readReg x) s
    | none => takeFault .registerAccess s

/-- `BUFCLR` (R202). -/
def bufclrCommand (s : State) : State := unlessFaulted s <| respondOk 0 { s with buf := [] }

/-- `BUFPUSH v8` (R203): the response is the new length. -/
def bufpushCommand (P : Params) (v8 : Byte) (s : State) : State :=
  unlessFaulted s <|
    if s.buf.length = P.bufMax then takeFault .bufferCapacity s
    else
      let t : State := { s with buf := s.buf.push v8 }
      respondOk t.buflen t

/-- `BUFRD i` (R204). -/
def bufrdCommand (i : Len) (s : State) : State :=
  unlessFaulted s <|
    match s.buf.read i.toNat with
    | some v => respondOk (zext16 v) s
    | none => takeFault .indexRange s

/-- `WRREG` on the default parameters. -/
def execWrreg (r : RegNum) (v : Len) (s : State) : Host.Outcome State Fault Refusal :=
  .next (wrregCommand Rom.defaults r v s)

/-- `RDREG` on the default parameters. -/
def execRdreg (r : RegNum) (s : State) : Host.Outcome State Fault Refusal := .next (rdregCommand Rom.defaults r s)

/-- `BUFCLR` on the default parameters. -/
def execBufclr (s : State) : Host.Outcome State Fault Refusal := .next (bufclrCommand s)

/-- `BUFPUSH` on the default parameters. -/
def execBufpush (v8 : Byte) (s : State) : Host.Outcome State Fault Refusal := .next (bufpushCommand Rom.defaults v8 s)

/-- `BUFRD` on the default parameters. -/
def execBufrd (i : Len) (s : State) : Host.Outcome State Fault Refusal := .next (bufrdCommand i s)

end Sys2Proof.Machine
end

