-- ==== Sys2Proof/Machine/Gf256.lean ====
section
/-! DEFINITION. The GF(256) arithmetic engine and `GFMUL` (spec/41_gf256_multiply.md). -/

namespace Sys2Proof.Machine

open Sys2Proof.Config

/-- `LOG[e]`, a log index (R10, R21). -/
def logOf (F : FieldTables) (e : Byte) : Nat := (F.log.getD e.toNat 0).toNat

/-- `ALOG[i]`, 0 ≤ i ≤ 254 (R10, R21); never addressed at 255 or above (R123). -/
def alogOf (F : FieldTables) (i : Nat) : Byte := F.alog.getD i 0

/-- `gfmul(a, b)` (R120): the zero test is made on the operands, before any ROM is read. -/
def gfmul (F : FieldTables) (a b : Byte) : Byte :=
  if a = 0 ∨ b = 0 then 0 else alogOf F ((logOf F a + logOf F b) % groupOrder)

/-- `GFMUL a, b` (R121). -/
def gfmulCommand (P : Params) (a b : Byte) (s : State) : State :=
  unlessFaulted s <|
    respondOk (zext16 (gfmul P.field a b)) { s with res := gfmul P.field a b }

/-- `GFMUL` on the default parameters. -/
def execGfmul (a b : Byte) (s : State) : Host.Outcome State Fault Refusal := .next (gfmulCommand Rom.defaults a b s)

end Sys2Proof.Machine
end

