-- ==== Sys2Proof/Machine/Catalog.lean ====
section
/-! DEFINITION. The generator polynomial catalog, `GENFIND` and `GENRD` (spec/42_generator_catalog.md). -/

namespace Sys2Proof.Machine

open Sys2Proof.Config

/-- `findGenerator(n)` (R140): the index of the entry whose length is exactly `n`, or none, which stands for
`err(UnsupportedRedundancyLength(n))`. -/
def findGenerator (n : Nat) : Option Nat := genLen.findIdx? fun l => l == n

/-- `GEN[j][0], GEN[j][1], ...`: the coefficient sequence of entry `j`, constant term first (R22). -/
def entry (P : Params) (j : Nat) : List Byte := P.gen.getD j []

/-- The coefficient sequence of the entry of length `n` (R140). -/
def coefficients (P : Params) (n : Nat) : List Byte :=
  match findGenerator n with
  | some j => entry P j
  | none => []

/-- `GSEL` with `GVALID` = 1 and `GIDX` = `j` (R33). -/
def selectWord (j : Nat) : Len := 0x8000 + lenOf j

/-- `GENFIND n` (R141). A failed lookup drops the previous selection. -/
def genfindCommand (n : Len) (s : State) : State :=
  unlessFaulted s <|
    match findGenerator n.toNat with
    | some j => respondOk (lenOf j) ({ s with gsel := selectWord j, glen := n }.recordSuccess)
    | none => raiseError (.unsupportedRedundancyLength n) { s with gsel := 0, glen := 0 }

/-- `GVALID`, `GSEL[15]` (R33). -/
def State.gvalid (s : State) : Bool := s.gsel.getLsbD 15

/-- `GIDX`, `GSEL[3:0]` (R33). -/
def State.gidx (s : State) : Nat := (s.gsel.extractLsb' 0 4).toNat

/-- `GENRD k` (R143). -/
def genrdCommand (P : Params) (k : Len) (s : State) : State :=
  unlessFaulted s <|
    if s.gvalid = false ∨ s.glen.toNat ≤ k.toNat then takeFault .indexRange s
    else respondOk (zext16 ((entry P s.gidx).getD k.toNat 0)) s

/-- `GENFIND` on the default parameters: the lengths are fixed (R6), so it reads none of them. -/
def execGenfind (n : Len) (s : State) : Host.Outcome State Fault Refusal := .next (genfindCommand n s)

/-- `GENRD` on the default parameters. -/
def execGenrd (k : Len) (s : State) : Host.Outcome State Fault Refusal := .next (genrdCommand Rom.defaults k s)

end Sys2Proof.Machine
end

