-- ==== Sys2Proof/Machine/BlockEcc.lean ====
section
/-! DEFINITION. The block ECC generator, a linear-feedback-shift-register remainder engine over a strided view of the
buffer, and `ECCBLK` (spec/43_block_ecc.md). -/

namespace Sys2Proof.Machine

open Sys2Proof.Config

/-- The feedback `R[n-1] XOR d` (R161, step 1). -/
def feedback (R : List Byte) (d : Byte) : Byte := R.getD (R.length - 1) 0 ^^^ d

/-- `lfsrStep(n, g, R, d)` (R161), `n` the length of `g` and of `R`: position 0 gets `gfmul(fb, g[0])`, position `k`
gets the OLD `R[k-1] XOR gfmul(fb, g[k])`. -/
def lfsrStep (F : FieldTables) (g R : List Byte) (d : Byte) : List Byte :=
  match g with
  | [] => []
  | g0 :: gs =>
    gfmul F (feedback R d) g0 ::
      List.zipWith (fun r gk => r ^^^ gfmul F (feedback R d) gk) R gs

/-- Absorb data elements in position order (R162). -/
def absorb (F : FieldTables) (g R : List Byte) (ds : List Byte) : List Byte := ds.foldl (lfsrStep F g) R

/-- The register after the data of one block: "state initialized to all zeros", then one step per element (R162). -/
def remainder (F : FieldTables) (g : List Byte) (ds : List Byte) : List Byte :=
  absorb F g (List.replicate g.length 0) ds

/-- The data elements of a block, element 0 first (R162, R163). -/
def blockElements (m : Memory) (codeOffset codeLength stride : Nat) : List Byte :=
  (List.range codeLength).map fun t => m.load (stridedIndex codeOffset stride t)

/-- The write-back (R162, R166): ECC position `i` receives `R[n-1-i]`, positions in increasing order. -/
def writeBack (m : Memory) (R : List Byte) (eccOffset stride : Nat) : Memory :=
  (List.range R.length).foldl
    (fun m i => m.store (stridedIndex eccOffset stride i) (R.getD (R.length - 1 - i) 0)) m

/-- `computeBlock(buf, codeOffset, codeLength, eccOffset, n, stride)` (R162): all reads come before all writes
(R72). -/
def computeBlock (P : Params) (m : Memory) (codeOffset codeLength eccOffset n stride : Nat) : Memory :=
  writeBack m (remainder P.field (coefficients P n) (blockElements m codeOffset codeLength stride)) eccOffset stride

/-- What a block computation works on: the buffer and the hidden register file (R20). -/
structure Work where
  /-- `BUF`. -/
  buf : Memory
  /-- `R[0..67]`. -/
  lfsr : List Byte
deriving DecidableEq, Repr

/-- One block computation together with what it leaves in `R`: it uses `R[0..n-1]` and ignores the rest (R26,
R162). -/
def runBlock (P : Params) (codeOffset codeLength eccOffset n stride : Nat) (w : Work) : Work :=
  { buf := computeBlock P w.buf codeOffset codeLength eccOffset n stride
    lfsr :=
      remainder P.field (coefficients P n) (blockElements w.buf codeOffset codeLength stride) ++ w.lfsr.drop n }

/-- The last index of a run of `len` positions (`len` > 0) is at or beyond the end (R165, R182). -/
def runsPast (base stride len bound : Nat) : Bool := decide (bound ≤ stridedIndex base stride (len - 1))

/-- `ECCBLK` as a function of the buffer and the operands: the checks of R165 in their order, all before the first
write, then `computeBlock` (R164). -/
def blockEcc (P : Params) (p : BlockParams) (w : Work) : Ending Work :=
  if findGenerator p.eccLen.toNat = none then .err (.unsupportedRedundancyLength p.eccLen)
  else if p.stride = 0 then .fault .operandRange
  else if 0 < p.codeLen.toNat ∧ runsPast p.codeOff.toNat p.stride.toNat p.codeLen.toNat w.buf.length then
    .fault .indexRange
  else if runsPast p.eccOff.toNat p.stride.toNat p.eccLen.toNat w.buf.length then .fault .indexRange
  else
    .ok (runBlock P p.codeOff.toNat p.codeLen.toNat p.eccOff.toNat p.eccLen.toNat p.stride.toNat w)

/-- The part of the state a block computation works on. -/
def State.work (s : State) : Work := { buf := s.buf, lfsr := s.lfsr }

/-- The end of `ECCBLK` and `ENCODE` (R164, R181): on success the work is stored, the status registers are cleared and
the response is OK with `BUFLEN`; otherwise the error is raised or the fault taken and nothing else is written. -/
def finishWork (e : Ending Work) (s : State) : State :=
  match e with
  | .ok w =>
    let t : State := { s with buf := w.buf, lfsr := w.lfsr }.recordSuccess
    respondOk t.buflen t
  | .err e => raiseError e s
  | .fault c => takeFault c s

/-- `ECCBLK` (R164). -/
def eccblkCommand (P : Params) (s : State) : State :=
  unlessFaulted s <| finishWork (blockEcc P s.param s.work) s

/-- `ECCBLK` on the default parameters. -/
def execEccblk (s : State) : Host.Outcome State Fault Refusal := .next (eccblkCommand Rom.defaults s)

end Sys2Proof.Machine
end

