-- ==== Sys2Proof/Machine/SymbolEcc.lean ====
section
/-! DEFINITION. The symbol ECC orchestrator, buffer manager and `ENCODE` (spec/44_symbol_encode.md). -/

namespace Sys2Proof.Machine

open Sys2Proof.Config

/-- The ECC length in force: `E1` when `N` = 1, `EB` otherwise (R180). -/
def Desc.eccLength (d : Desc) : Len := if d.nblk = 1 then d.errcw else d.blkerr

/-- Check 7 for one block `b` (R182): its last data position or its last ECC position is at or beyond `C`. -/
def Desc.blockRunsPast (d : Desc) (b : Nat) : Bool :=
  (decide (0 < d.blockData (b + 1)) && runsPast b d.nblk.toNat (d.blockData (b + 1)) d.cwcnt.toNat) ||
    runsPast (d.dcap.toNat + b) d.nblk.toNat d.blkerr.toNat d.cwcnt.toNat

/-- The computation of block `b` of an interleaved symbol (R185): block INDEX `b` from 0, block NUMBER `b + 1`. -/
def Desc.runInterleaved (P : Params) (d : Desc) (b : Nat) (w : Work) : Work :=
  runBlock P b (d.blockData (b + 1)) (d.dcap.toNat + b) d.blkerr.toNat d.nblk.toNat w

/-- The interleaved blocks in a given order. -/
def Desc.runBlocks (P : Params) (d : Desc) (order : List Nat) (w : Work) : Work :=
  order.foldl (fun w b => d.runInterleaved P b w) w

/-- Steps 2 and 3 on the grown buffer (R184, R185); the blocks in increasing `b` (R73). -/
def Desc.runSteps (P : Params) (d : Desc) (w : Work) : Work :=
  if d.nblk = 1 then runBlock P 0 d.dcap.toNat d.dcap.toNat d.errcw.toNat 1 w
  else d.runBlocks P (List.range d.nblk.toNat) w

/-- Step 1 (R183). -/
def Desc.grow (d : Desc) (w : Work) : Work := { w with buf := w.buf.growTo d.cwcnt.toNat }

/-- `encode(buf, desc)` (R187), with the register file carried along: the checks of R182 in their order, all before
the first write, then the three steps (R181). -/
def symbolEcc (P : Params) (d : Desc) (w : Work) : Ending Work :=
  if w.buf.length ≠ d.dcap.toNat then .err (.codewordCountMismatch d.dcap (lenOf w.buf.length))
  else if d.nblk.toNat = 0 ∨ P.nblkMax < d.nblk.toNat then .fault .operandRange
  else if findGenerator d.eccLength.toNat = none then .err (.unsupportedRedundancyLength d.eccLength)
  else if d.cwcnt.toNat < d.dcap.toNat then .fault .operandRange
  else if P.bufMax < d.cwcnt.toNat then .fault .bufferCapacity
  else if d.nblk = 1 ∧ d.cwcnt.toNat < d.dcap.toNat + d.errcw.toNat then .fault .indexRange
  else if d.nblk ≠ 1 ∧ (List.range d.nblk.toNat).any d.blockRunsPast then .fault .indexRange
  else .ok (d.runSteps P (d.grow w))

/-- `ENCODE` (R181). -/
def encodeCommand (P : Params) (s : State) : State :=
  unlessFaulted s <| finishWork (symbolEcc P s.desc s.work) s

/-- `ENCODE` on the default parameters. -/
def execEncode (s : State) : Host.Outcome State Fault Refusal := .next (encodeCommand Rom.defaults s)

end Sys2Proof.Machine
end

