-- ==== Sys2Proof/Machine/Dispatch.lean ====
section
/-! DEFINITION. One arm per command (spec/30_encoding.md R93). -/

namespace Sys2Proof.Machine

def exec (i : Instr) (s : State) : Host.Outcome State Fault Refusal :=
  match i with
  | .gfmul a b => Sys2Proof.Machine.execGfmul a b s
  | .genfind n => Sys2Proof.Machine.execGenfind n s
  | .genrd k => Sys2Proof.Machine.execGenrd k s
  | .eccblk => Sys2Proof.Machine.execEccblk s
  | .encode => Sys2Proof.Machine.execEncode s
  | .wrreg r v => Sys2Proof.Machine.execWrreg r v s
  | .rdreg r => Sys2Proof.Machine.execRdreg r s
  | .bufclr => Sys2Proof.Machine.execBufclr s
  | .bufpush v8 => Sys2Proof.Machine.execBufpush v8 s
  | .bufrd k => Sys2Proof.Machine.execBufrd k s

end Sys2Proof.Machine
end

