-- ==== Sys2Proof/Machine/Step.lean ====
section
/-! DEFINITION. One step of an instance: one command run to its end (spec/20_memory.md R69, R71), or a reset between
commands (spec/70_reset_and_hazards.md R250). There is no fetch and no program counter (spec/10_state.md R40): the
next command is the next one the host presents. -/

namespace Sys2Proof.Machine

/-- The block runs one command word (R96): the command it decodes to, or the illegal-command fault. -/
def runWord (w : Word) (s : State) : Host.Outcome State Fault Refusal :=
  match decode w with
  | .ok i => exec i s
  | .error _ => .next (illegalCommand s)

/-- One step. With nothing presented the block waits (R251). -/
def step (s : State) : Host.Outcome State Fault Refusal :=
  match s.inputs with
  | [] => .next (waitForHost s)
  | .reset :: rest => .next (resetEvent Rom.defaults (s.consume rest))
  | .command w :: rest => runWord w (s.consume rest)

/-- The host presents the word (bits above `nbits` zero) as its very next command (R90). -/
def State.withFetchWord (s : State) (nbits w : Nat) : State := s.present (BitVec.ofNat 32 (w % 2 ^ nbits))

end Sys2Proof.Machine
end

