-- ==== Sys2Proof/Machine/Algebra.lean ====
section
/-! DEFINITION. What the register holds, as algebra (spec/43_block_ecc.md R169), the construction of the catalog
(spec/42_generator_catalog.md R146) and the checks a model runs on it (R148). No command uses these: they are for statements. Polynomials stand highest power
first, as the data elements are consumed (spec/20_memory.md R65). -/

namespace Sys2Proof.Machine

open Sys2Proof.Config

/-- The bytewise `XOR` of two equally long sequences: addition of polynomials (R124). -/
def xorList (xs ys : List Byte) : List Byte := List.zipWith (fun x y => x ^^^ y) xs ys

/-- The monic polynomial of a catalog entry: the leading 1 that is not stored, then the entry from its last
coefficient down (R22). -/
def monic (g : List Byte) : List Byte := 1 :: g.reverse

/-- The value of a polynomial at a point, highest power first (Horner). -/
def evalPoly (F : FieldTables) (cs : List Byte) (x : Byte) : Byte :=
  cs.foldl (fun acc c => gfmul F acc x ^^^ c) 0

/-- A constant times a polynomial. -/
def scale (F : FieldTables) (c : Byte) (m : List Byte) : List Byte := m.map fun x => gfmul F c x

/-- The product of two polynomials, highest power first, with `q.length + m.length - 1` coefficients. -/
def polyProduct (F : FieldTables) : List Byte → List Byte → List Byte
  | [], m => List.replicate (m.length - 1) 0
  | c :: q, m => xorList (scale F c m ++ List.replicate q.length 0) (0 :: polyProduct F q m)

/-- The feedback bytes of the steps, first element first: the quotient digits (R169). -/
def quotient (F : FieldTables) (g R : List Byte) : List Byte → List Byte
  | [] => []
  | d :: ds => feedback R d :: quotient F g (lfsrStep F g R d) ds

/-- The ECC codewords of a block, lowest buffer index first: the register reversed (R166). -/
def eccOf (F : FieldTables) (g : List Byte) (ds : List Byte) : List Byte := (remainder F g ds).reverse

/-- One factor more: `g(x) * (x - r)`, lowest power first (R146). -/
def timesRoot (F : FieldTables) (g : List Byte) (r : Byte) : List Byte :=
  xorList (0 :: g) (g.map (fun c => gfmul F c r) ++ [0])

/-- The construction of R146 before its leading 1 is dropped: `(x - α^1) ... (x - α^n)`, lowest power first. -/
def generatorPoly (F : FieldTables) (n : Nat) : List Byte :=
  (List.range n).foldl (fun g i => timesRoot F g (alogOf F (i + 1))) [1]

/-- The catalog entry R146 constructs: the leading 1 dropped. -/
def generatorEntry (F : FieldTables) (n : Nat) : List Byte := (generatorPoly F n).take n

/-- The checks of R148 on any catalog: entry `j` has exactly `GENLEN[j]` coefficients, and the lengths are the 16 of
R22, strictly ascending. -/
structure CatalogChecked (P : Params) : Prop where
  count : P.gen.length = 16
  lengths : ∀ j < 16, (entry P j).length = genLen.getD j 0
  ascending : genLen.Pairwise (· < ·)
  theSixteen : genLen = [5, 7, 10, 11, 12, 14, 18, 20, 24, 28, 36, 42, 48, 56, 62, 68]

/-- The descriptor and the buffer of the known-vector scenario (spec/95_test_vectors.md S5). -/
def knownDesc (nblkMax : Nat) : Desc :=
  { dcap := 3, cwcnt := 8, nblk := 1, errcw := 5, blkerr := 0, blkdata := List.replicate nblkMax 0 }

/-- What R148 checks of the supplied catalog in addition: the monic polynomial of the entry of length `n` is 0 at
`α^1, ..., α^n` and not 0 at `α^0` and `α^(n+1)`, and the known-vector scenario gives its recorded result. -/
structure SuppliedCatalogChecked (P : Params) : Prop extends CatalogChecked P where
  roots : ∀ n ∈ genLen, ∀ i, 1 ≤ i → i ≤ n →
    evalPoly P.field (monic (coefficients P n)) (alogOf P.field i) = 0
  noRootBefore : ∀ n ∈ genLen, evalPoly P.field (monic (coefficients P n)) (alogOf P.field 0) ≠ 0
  noRootAfter : ∀ n ∈ genLen, evalPoly P.field (monic (coefficients P n)) (alogOf P.field (n + 1)) ≠ 0
  knownVector : ∀ R : List Byte, ∃ w, symbolEcc P (knownDesc P.nblkMax) { buf := [142, 164, 186], lfsr := R } = .ok w ∧
    w.buf = [142, 164, 186, 114, 25, 5, 88, 102]

/-- The premises of R192 for a single-block descriptor: the ECC positions tile `D` to `C - 1`. -/
def Desc.TilesSingle (d : Desc) : Prop := d.nblk = 1 ∧ d.cwcnt.toNat = d.dcap.toNat + d.errcw.toNat

/-- The premises of R192 for an interleaved descriptor: block `b` has one data element for each index below `D` that
is congruent to `b` modulo `N`, and the ECC positions tile `D` to `C - 1`. -/
def Desc.TilesInterleaved (d : Desc) : Prop :=
  1 < d.nblk.toNat ∧ d.cwcnt.toNat = d.dcap.toNat + d.nblk.toNat * d.blkerr.toNat ∧
    ∀ b < d.nblk.toNat, d.blockData (b + 1) = ((List.range d.dcap.toNat).filter fun a => a % d.nblk.toNat = b).length

/-- The checks of R182 that a descriptor itself decides, all passed, for a buffer of `DCAP` bytes. -/
structure Desc.Accepted (P : Params) (d : Desc) : Prop where
  count : 0 < d.nblk.toNat ∧ d.nblk.toNat ≤ P.nblkMax
  length : d.eccLength.toNat ∈ genLen
  order : d.dcap.toNat ≤ d.cwcnt.toNat
  capacity : d.cwcnt.toNat ≤ P.bufMax
  single : d.nblk.toNat = 1 → d.dcap.toNat + d.errcw.toNat ≤ d.cwcnt.toNat
  interleaved : 1 < d.nblk.toNat → ∀ b < d.nblk.toNat,
    (0 < d.blockData (b + 1) → b + (d.blockData (b + 1) - 1) * d.nblk.toNat < d.cwcnt.toNat) ∧
      d.dcap.toNat + b + (d.blkerr.toNat - 1) * d.nblk.toNat < d.cwcnt.toNat

/-- The checks of R165, all passed, on a buffer of `len` bytes. -/
structure BlockParams.Accepted (p : BlockParams) (len : Nat) : Prop where
  length : p.eccLen.toNat ∈ genLen
  stride : 0 < p.stride.toNat
  data : 0 < p.codeLen.toNat → p.codeOff.toNat + (p.codeLen.toNat - 1) * p.stride.toNat < len
  ecc : p.eccOff.toNat + (p.eccLen.toNat - 1) * p.stride.toNat < len

end Sys2Proof.Machine
end

