-- ==== Sys2Proof/Machine/Instances.lean ====
section
/-! DEFINITION. Several instances side by side: the product of the single-instance models (spec/60_exceptions.md
R234). They share the ROMs, which are configuration, and nothing mutable. -/

namespace Sys2Proof.Machine

/-- Instance `k` makes one step; the others do not move. Where there is no instance `k` nothing moves. -/
def stepAt (k : Nat) (sys : List State) : Host.Outcome (List State) Fault Refusal :=
  match sys[k]? with
  | none => .next sys
  | some s =>
    match step s with
    | .next t => .next (sys.set k t)
    | .fault f => .fault f
    | .refused r => .refused r

/-- The instances step in the order of a schedule. -/
def stepSchedule : List Nat → List State → Host.Outcome (List State) Fault Refusal
  | [], sys => .next sys
  | k :: ks, sys =>
    match stepAt k sys with
    | .next sys' => stepSchedule ks sys'
    | .fault f => .fault f
    | .refused r => .refused r

end Sys2Proof.Machine
end

