-- ==== Sys2Proof/Machine/Generic.lean ====
section
/-! DEFINITION. The machine for ANY choice of the four open parameters (spec/00_scope.md R8: "the model takes each as
an argument"). `exec` and `step` are these at the default parameters. -/

namespace Sys2Proof.Machine

open Sys2Proof.Config

/-- One command on the parameters `P`. -/
def command (P : Params) : Instr → State → State
  | .gfmul a b, s => gfmulCommand P a b s
  | .genfind n, s => genfindCommand n s
  | .genrd k, s => genrdCommand P k s
  | .eccblk, s => eccblkCommand P s
  | .encode, s => encodeCommand P s
  | .wrreg r v, s => wrregCommand P r v s
  | .rdreg r, s => rdregCommand P r s
  | .bufclr, s => bufclrCommand s
  | .bufpush v8, s => bufpushCommand P v8 s
  | .bufrd i, s => bufrdCommand i s

/-- One command word on the parameters `P`. -/
def commandWord (P : Params) (w : Word) (s : State) : State :=
  match decode w with
  | .ok i => command P i s
  | .error _ => illegalCommand s

/-- One step on the parameters `P`. -/
def advance (P : Params) (s : State) : State :=
  match s.inputs with
  | [] => waitForHost s
  | .reset :: rest => resetEvent P (s.consume rest)
  | .command w :: rest => commandWord P w (s.consume rest)

/-- The host runs a program: it presents the words one after another, each after the response to the one before. -/
def runWords (P : Params) (ws : List Word) (s : State) : State := ws.foldl (fun s w => commandWord P w s) s

/-- The host runs commands, as `runWords` of their words. -/
def runProgram (P : Params) (is : List Instr) (s : State) : State := runWords P (is.map encode) s

end Sys2Proof.Machine
end

