-- ==== Sys2Proof/Safety.lean ====
section
/-! DEFINITION. What a run of ECC200-CORE keeps: the state invariant, in the terms claims use, and a safe run. -/

namespace Sys2Proof.Machine

open Sys2Proof.Config

/-- A response word the block can produce (spec/30_encoding.md R97): `TAG` 3 never, bits [23:16] zero, `CODE` 0 for
OK, 1 or 2 for ERROR, 1 to 5 for FAULT, and `DATA` 0 for FAULT. -/
def LegalResponse (r : Word) : Prop :=
  r.extractLsb' 16 8 = 0 ∧
    ((r.extractLsb' 30 2 = 0 ∧ r.extractLsb' 24 6 = 0) ∨
      (r.extractLsb' 30 2 = 1 ∧ (r.extractLsb' 24 6 = 1 ∨ r.extractLsb' 24 6 = 2)) ∨
      (r.extractLsb' 30 2 = 2 ∧ 1 ≤ (r.extractLsb' 24 6).toNat ∧ (r.extractLsb' 24 6).toNat ≤ 5 ∧
        r.extractLsb' 0 16 = 0))

/-- `STATUS`, `ERRINFO0`, `ERRINFO1` agree (spec/10_state.md R34, R35): kind 3 and the reserved bits never occur, and
the payload is that of the kind. -/
def State.StatusLegal (s : State) : Prop :=
  (s.status = 0 ∧ s.errinfo0 = 0 ∧ s.errinfo1 = 0) ∨
    (s.status = 1 ∧ s.errinfo0 ≠ s.errinfo1) ∨
    (s.status = 2 ∧ s.errinfo0.toNat ∉ genLen ∧ s.errinfo1 = 0)

/-- `GSEL` and `GLEN` agree (R33): nothing selected, or an entry and its length; the reserved bits are 0. -/
def State.SelectionLegal (s : State) : Prop :=
  (s.gsel = 0 ∧ s.glen = 0) ∨
    ∃ j < 16, s.gsel = 0x8000 + BitVec.ofNat 16 j ∧ s.glen.toNat = genLen.getD j 0

/-- `FAULT` and `FCAUSE` agree (R36, R224): `FCAUSE` 6 and 7 never occur, 0 only without a fault. -/
def State.FaultLegal (s : State) : Prop :=
  (s.fault = false ∧ s.fcause = 0) ∨ (s.fault = true ∧ 1 ≤ s.fcause.toNat ∧ s.fcause.toNat ≤ 5)

/-- Every piece of the block's state is at the value R45 gives for reset. `R` is left out: R45 gives it no value (its
length is R26's). -/
structure State.AtResetValues (P : Params) (s : State) : Prop where
  descriptor : s.desc.dcap = 0 ∧ s.desc.cwcnt = 0 ∧ s.desc.nblk = 0 ∧ s.desc.errcw = 0 ∧ s.desc.blkerr = 0
  blkdata : s.desc.blkdata.length = P.nblkMax ∧ ∀ v ∈ s.desc.blkdata, v = 0
  parameters : s.param.codeOff = 0 ∧ s.param.codeLen = 0 ∧ s.param.eccOff = 0 ∧ s.param.eccLen = 0 ∧ s.param.stride = 0
  buffer : s.buf = [] ∧ s.buflen = 0
  lfsr : s.lfsr.length = lfsrDepth
  results : s.res = 0 ∧ s.gsel = 0 ∧ s.glen = 0
  status : s.status = 0 ∧ s.errinfo0 = 0 ∧ s.errinfo1 = 0
  faultState : s.fault = false ∧ s.fcause = 0

/-- The invariant of the machine on the parameters `P`. -/
structure State.Inv (P : Params) (s : State) : Prop where
  /-- `BUFLEN` is 0 to `BUF_MAX` (R25). -/
  buffer : Memory.wf P s.buf = true
  /-- There are `NBLK_MAX` registers `BLKDATA` (R28). -/
  blkdata : s.desc.blkdata.length = P.nblkMax
  /-- There are 68 bytes `R` (R26). -/
  lfsr : s.lfsr.length = lfsrDepth
  /-- R34, R35. -/
  status : s.StatusLegal
  /-- R33. -/
  selection : s.SelectionLegal
  /-- R36. -/
  faultState : s.FaultLegal
  /-- R97. -/
  responses : ∀ r ∈ s.responses, LegalResponse r

/-- A safe state: the invariant holds and no spec fault has been met since reset (R227: "a faulted instance is never
in a final state"). -/
def State.Safe (P : Params) (s : State) : Prop := s.Inv P ∧ s.fault = false

end Sys2Proof.Machine
end

