-- ==== Sys2Proof/Certificates/Slice0/Obligations.lean ====
section
/-! DEFINITION. The statements for the provers. Each docstring says which rule of spec/ it formalises. A statement
about `exec` is about the machine at the spec's default parameters (`Rom.defaults`); none but those that say so rests
on the contents of the default tables (notes/assumptions/4.md, 5.md, PRESUMED). -/

open Sys2Proof Sys2Proof.Config Sys2Proof.Machine

namespace Sys2Proof.Claims

/-- The response word of an OK end: `TAG` 0, `CODE` 0, `DATA` = `d` (R97). -/
def okResponse (d : Len) : Word := 0x0000#16 ++ d

/-- The response word of `CodewordCountMismatch` with expected length `d` (R97). -/
def mismatchResponse (d : Len) : Word := 0x4100#16 ++ d

/-- The response word of `UnsupportedRedundancyLength` for the length `n` (R97). -/
def unsupportedResponse (n : Len) : Word := 0x4200#16 ++ n

/-- The response word of a fault with `FCAUSE` = `c`: `TAG` 2, `CODE` = `c`, `DATA` 0 (R97). -/
def faultResponse (c : BitVec 3) : Word := 0b10000#5 ++ c ++ 0#24

/-- The state with one more response returned and nothing else changed. -/
def answered (r : Word) (s : State) : State := { s with responses := r :: s.responses }

/-- The state after a spec fault of cause `c`: `FAULT`, `FCAUSE` and the response, nothing else (R227). -/
def faulted (c : BitVec 3) (s : State) : State :=
  { s with fault := true, fcause := c, responses := faultResponse c :: s.responses }

/-- The state after `UnsupportedRedundancyLength(n)`: the status registers and the response, nothing else (R226). -/
def unsupported (n : Len) (s : State) : State :=
  { s with status := 2, errinfo0 := n, errinfo1 := 0, responses := unsupportedResponse n :: s.responses }

/-- The last response has `TAG` OK. -/
def EndedOk (s : State) : Prop := ∃ r rest, s.responses = r :: rest ∧ r.extractLsb' 30 2 = 0#2

/-- No data position of an interleaved descriptor reaches into the ECC region (the premise of R73). -/
def DataBelowEcc (d : Desc) : Prop :=
  ∀ b < d.nblk.toNat, ∀ i < d.blockData (b + 1), b + i * d.nblk.toNat < d.dcap.toNat

/-- The bytes of the data positions of block `b`, element 0 first (R62). -/
def blockBytes (d : Desc) (m : Memory) (b : Nat) : List Byte :=
  (List.range (d.blockData (b + 1))).map fun i => m.getD (b + i * d.nblk.toNat) 0

end Sys2Proof.Claims

open Sys2Proof.Claims

/-! ### Encoding -/

/-- R101: the example words of the spec decode to the commands they stand for. -/
def Obligations.ExampleWordsDecode : Prop :=
  decode 0x01008002#32 = .ok (.gfmul 2 128) ∧ decode 0x02000005#32 = .ok (.genfind 5) ∧
    decode 0x03000004#32 = .ok (.genrd 4) ∧ decode 0x04000000#32 = .ok .eccblk ∧
    decode 0x05000000#32 = .ok .encode ∧ decode 0x10080003#32 = .ok (.wrreg 0x08 3) ∧
    decode 0x1021009B#32 = .ok (.wrreg 0x21 155) ∧ decode 0x11000000#32 = .ok (.rdreg 0x00) ∧
    decode 0x11060000#32 = .ok (.rdreg 0x06) ∧ decode 0x12000000#32 = .ok .bufclr ∧
    decode 0x1300008E#32 = .ok (.bufpush 142) ∧ decode 0x14000007#32 = .ok (.bufrd 7)

/-- R91, R93: no bit of a command is dropped by its encoding, for every command with every operand. -/
def Obligations.DecodeOfEncode : Prop := ∀ i : Instr, decode (encode i) = .ok i

/-- R93, R96: a word has one meaning: a word that decodes is the encoding of what it decodes to. -/
def Obligations.EncodeOfDecode : Prop := ∀ (w : Word) (i : Instr), decode w = .ok i → encode i = w

/-- R93: a word is the command of a row exactly when `cmd AND mask = match`, and the rows are pairwise exclusive. -/
def Obligations.WordIsCommandOfItsRow : Prop :=
  ∀ w : Word,
    (∀ i, decode w = .ok i → ∃ row ∈ rows, row.mnemonic = i.mnemonic ∧ w &&& row.format.mask = row.matchWord) ∧
      (∀ row ∈ rows, w &&& row.format.mask = row.matchWord → ∃ i, decode w = .ok i ∧ i.mnemonic = row.mnemonic) ∧
      ∀ row ∈ rows, ∀ row' ∈ rows, w &&& row.format.mask = row.matchWord → w &&& row'.format.mask = row'.matchWord →
        row = row'

/-- R94, R95, R224 (cause 1): an illegal word is rejected by name (an unassigned opcode, or a must-be-zero bit), and an
instance that has not faulted takes the fault `IllegalCommand` on it and changes nothing else. -/
def Obligations.IllegalWordFaults : Prop :=
  ∀ (w : Word) (s : State), (∀ row ∈ rows, w &&& row.format.mask ≠ row.matchWord) → s.fault = false →
    (decode w =
      if w.extractLsb' 24 8 ∈ [0x01#8, 0x02#8, 0x03#8, 0x04#8, 0x05#8, 0x10#8, 0x11#8, 0x12#8, 0x13#8, 0x14#8] then
        .error (.reservedBits (w.extractLsb' 24 8))
      else .error (.unassignedOpcode (w.extractLsb' 24 8))) ∧
      runWord w s = .next (faulted 1 s)

/-! ### The step -/

/-- R96, R71: when the next thing the host presents is a word that decodes to a command, a step takes it off the
host's list and is `exec` of that command; in particular for the word placed by `withFetchWord`. -/
def Obligations.StepRunsDecodedCommand : Prop :=
  (∀ (s : State) (w : Word) (rest : List HostInput) (i : Instr), s.inputs = .command w :: rest → decode w = .ok i →
      step s = exec i { s with inputs := rest }) ∧
    ∀ (s : State) (i : Instr), step (s.withFetchWord 32 (encode i).toNat) = exec i s

/-- R8: the machine takes the four open parameters as an argument (`command`, `advance`), and `exec` and `step` are
that machine at the defaults: every command and every step ends in a next state (R189). -/
def Obligations.MachineIsGenericAtDefaults : Prop :=
  (∀ (i : Instr) (s : State), exec i s = .next (command Rom.defaults i s)) ∧
    ∀ s : State, step s = .next (advance Rom.defaults s)

/-- R45, R250: at reset and after the reset event, from every state, every piece of state the rule gives a value has
it; the event has no response and takes nothing else from the host's list. That reset is a transition is the model's
choice where R250 allows either form (log 11), and the lists of inputs and responses it leaves alone are the model's own
(log 2, DESIGN CHOICE). Straight after reset `ENCODE` faults on `NBLK = 0` and `ECCBLK` raises
`UnsupportedRedundancyLength(0)`. -/
def Obligations.ResetValues : Prop :=
  State.reset.AtResetValues Rom.defaults ∧
    (∀ (s : State) (rest : List HostInput), s.inputs = .reset :: rest →
      ∃ t, step s = .next t ∧ t.AtResetValues Rom.defaults ∧ t.inputs = rest ∧ t.responses = s.responses) ∧
    (∀ s : State, s.AtResetValues Rom.defaults →
      exec .encode s = .next (faulted 5 s) ∧ exec .eccblk s = .next (unsupported 0 s))

/-- The model's choice (log 2, DESIGN CHOICE): with its list of inputs empty a step leaves the whole state as it is. The
spec makes the command stream an input of the step (R42) and says that the block waits for its first command after
reset (R251). -/
def Obligations.WaitsForHost : Prop := ∀ s : State, s.inputs = [] → step s = .next s

/-! ### The invariant -/

/-- The invariant holds at reset (R45). -/
def Obligations.ResetMeetsInvariant : Prop := State.reset.Inv Rom.defaults

/-- Every step of the machine keeps the invariant, for every legal choice of the open parameters, and in particular at
the defaults: `BUFLEN` ≤ `BUF_MAX` (R25), reserved bits and payloads of the status registers (R34, R35), the selection
registers (R33), the fault state (R36), and only the responses of R97. -/
def Obligations.StepKeepsInvariant : Prop :=
  (∀ P, ParamsLegal P → ∀ s : State, s.Inv P → (advance P s).Inv P) ∧
    ∀ s t : State, s.Inv Rom.defaults → step s = .next t → t.Inv Rom.defaults

/-! ### The field -/

/-- R123: the log sum of nonzero operands, and the index at which `ALOG` is read, for every legal `FIELD`. -/
def Obligations.LogSumReducedModulo255 : Prop :=
  ∀ F, FieldLegal F → ∀ a b : Byte, a ≠ 0 → b ≠ 0 →
    ∃ la lb, F.log[a.toNat]? = some la ∧ F.log[b.toNat]? = some lb ∧ la.toNat ≤ 254 ∧ lb.toNat ≤ 254 ∧
      la.toNat + lb.toNat ≤ 508 ∧
      (la.toNat + lb.toNat) % 255 =
        (if la.toNat + lb.toNat < 255 then la.toNat + lb.toNat else la.toNat + lb.toNat - 255) ∧
      (la.toNat + lb.toNat) % 255 ≤ 254 ∧
      F.alog[(la.toNat + lb.toNat) % 255]? = some (gfmul F a b)

/-- R122: the laws of the multiplier, for every legal `FIELD`: commutative, no zero divisors, identity, associative,
distributive over `XOR`, and inverses. -/
def Obligations.MultiplierIsAField : Prop :=
  ∀ F, FieldLegal F →
    (∀ a b, gfmul F a b = gfmul F b a) ∧
      (∀ a b, gfmul F a b = 0 ↔ a = 0 ∨ b = 0) ∧
      (∀ a, gfmul F a 1 = a) ∧
      (∀ a b c, gfmul F (gfmul F a b) c = gfmul F a (gfmul F b c)) ∧
      (∀ a b c, gfmul F a (b ^^^ c) = gfmul F a b ^^^ gfmul F a c) ∧
      (∀ a, a ≠ 0 → ∀ b, gfmul F a b = 1 ↔ b = alogOf F ((255 - logOf F a) % 255)) ∧
      ∀ i < 255, ∀ j < 255, gfmul F (alogOf F i) (alogOf F j) = alogOf F ((i + j) % 255)

/-- R120, R122: commutativity and the zero short-circuit hold whatever the ROMs hold. -/
def Obligations.MultiplierLawsForAnyTables : Prop :=
  ∀ (F : FieldTables) (a b : Byte), gfmul F a b = gfmul F b a ∧ gfmul F a 0 = 0 ∧ gfmul F 0 b = 0

/-- R128 (fourth check) on the default tables (log 4, PRESUMED contents): `gfmul` is the shift-and-reduce product
modulo 0x12D. -/
def Obligations.DefaultProductIsPolynomialProduct : Prop :=
  ∀ a b : Byte, gfmul Rom.defaults.field a b = polyMul 0x12D a b

/-- R121: `GFMUL a, b` writes `RES` and answers the product; a faulted instance answers FAULT. -/
def Obligations.GfmulResult : Prop :=
  ∀ (a b : Byte) (s : State),
    encode (.gfmul a b) = (0x01#8 ++ 0x00#8 ++ b ++ a : Word) ∧
      (s.fault = false →
        exec (.gfmul a b) s =
          .next { s with
            res := gfmul Rom.defaults.field a b
            responses := okResponse ((gfmul Rom.defaults.field a b).setWidth 16) :: s.responses }) ∧
      (s.fault = true → exec (.gfmul a b) s = .next (answered (faultResponse s.fcause) s))

/-! ### The catalog -/

/-- R140: the lookup answers the index of the entry of exactly the requested length, and fails on every other length:
it succeeds for exactly the 16 lengths. -/
def Obligations.LookupByExactLength : Prop :=
  ∀ n : Nat,
    (∀ j, findGenerator n = some j ↔ j < 16 ∧ genLen[j]? = some n) ∧
      (findGenerator n = none ↔ n ∉ [5, 7, 10, 11, 12, 14, 18, 20, 24, 28, 36, 42, 48, 56, 62, 68])

/-- R141: `GENFIND n` on a catalog length, on any other length, and on a faulted instance. -/
def Obligations.GenfindResult : Prop :=
  ∀ (n : Len) (s : State),
    encode (.genfind n) = (0x02#8 ++ 0x00#8 ++ n : Word) ∧
      (s.fault = false → ∀ j < 16, genLen[j]? = some n.toNat →
        exec (.genfind n) s =
          .next { s with
            gsel := BitVec.ofNat 16 (0x8000 + j), glen := n
            status := 0, errinfo0 := 0, errinfo1 := 0
            responses := okResponse (BitVec.ofNat 16 j) :: s.responses }) ∧
      (s.fault = false → n.toNat ∉ genLen →
        exec (.genfind n) s = .next (unsupported n { s with gsel := 0, glen := 0 })) ∧
      (s.fault = true → exec (.genfind n) s = .next (answered (faultResponse s.fcause) s))

/-- R143: `GENRD k` answers coefficient `k` of the selected entry, which exists, and writes nothing; it faults
`IndexRange` when nothing is selected or `k ≥ GLEN`. For every state that meets the invariant (R33). -/
def Obligations.GenrdResult : Prop :=
  ∀ (k : Len) (s : State), s.Inv Rom.defaults →
    encode (.genrd k) = (0x03#8 ++ 0x00#8 ++ k : Word) ∧
      (s.fault = false → s.gsel.getLsbD 15 = true → k.toNat < s.glen.toNat →
        ∃ g c, Rom.defaults.gen[(s.gsel.extractLsb' 0 4).toNat]? = some g ∧ g.length = s.glen.toNat ∧
          g[k.toNat]? = some c ∧ exec (.genrd k) s = .next (answered (okResponse (c.setWidth 16)) s)) ∧
      (s.fault = false → s.gsel.getLsbD 15 = false ∨ s.glen.toNat ≤ k.toNat →
        exec (.genrd k) s = .next (faulted 4 s)) ∧
      (s.fault = true → exec (.genrd k) s = .next (answered (faultResponse s.fcause) s))

/-- R146, R147 on the default tables (log 4, 5, PRESUMED contents): every catalog entry is the one the construction
gives, the product of `x - α^i` for `i` from 1 to `n` with its leading 1 dropped. -/
def Obligations.CatalogIsConstructed : Prop :=
  ∀ n ∈ genLen, coefficients Rom.defaults n = generatorEntry Rom.defaults.field n

/-! ### The register -/

/-- R161: one step of the shift register, position by position, with the OLD register on the right. -/
def Obligations.ShiftRegisterStep : Prop :=
  ∀ (F : FieldTables) (g R : List Byte) (d : Byte) (n : Nat), 0 < n → g.length = n → R.length = n →
    (lfsrStep F g R d).length = n ∧
      (lfsrStep F g R d)[0]? = some (gfmul F (R.getD (n - 1) 0 ^^^ d) (g.getD 0 0)) ∧
      ∀ k, 1 ≤ k → k < n →
        (lfsrStep F g R d)[k]? = some (R.getD (k - 1) 0 ^^^ gfmul F (R.getD (n - 1) 0 ^^^ d) (g.getD k 0))

/-- R169: after the data `D` the register holds the remainder of `x^n · D(x)` on division by the monic polynomial of
the entry: `x^n · D(x) = q(x) · g(x) + R(x)`, for every legal `FIELD`, every entry and every data. -/
def Obligations.RegisterHoldsRemainder : Prop :=
  ∀ F, FieldLegal F → ∀ g ds : List Byte,
    (remainder F g ds).length = g.length ∧
      ∃ q : List Byte, q.length = ds.length ∧
        xorList (polyProduct F q (monic g)) (List.replicate ds.length 0 ++ (remainder F g ds).reverse) =
          ds ++ List.replicate g.length 0

/-- R169: data followed by its error codewords vanishes wherever the generator polynomial does, for every legal
`FIELD`, every entry and every data. -/
def Obligations.CodewordVanishesAtRoots : Prop :=
  ∀ F, FieldLegal F → ∀ (g ds : List Byte) (x : Byte), evalPoly F (monic g) x = 0 →
    evalPoly F (ds ++ eccOf F g ds) x = 0

/-- R169: encoding a codeword again gives all zeros. -/
def Obligations.ReencodingGivesZero : Prop :=
  ∀ (F : FieldTables) (g ds : List Byte), remainder F g (ds ++ eccOf F g ds) = List.replicate g.length 0

/-- R169: the error codewords of the bytewise `XOR` of two equally long data sequences are the bytewise `XOR` of
theirs. -/
def Obligations.ErrorCodewordsAreLinear : Prop :=
  ∀ F, FieldLegal F → ∀ g ds es : List Byte, ds.length = es.length →
    eccOf F g (xorList ds es) = xorList (eccOf F g ds) (eccOf F g es)

/-- R167, R169: zero data gives zero error codewords; any number of zeros and then a single 1 gives the entry
reversed. -/
def Obligations.ZeroAndUnitData : Prop :=
  ∀ F, FieldLegal F → ∀ (g : List Byte) (z : Nat), 0 < g.length →
    eccOf F g (List.replicate z 0) = List.replicate g.length 0 ∧ eccOf F g (List.replicate z 0 ++ [1]) = g.reverse

/-- R162, R166, R72: the block computation, under the preconditions of R165: the register is the one that the data
bytes, read before any write, leave when absorbed in order from all zeros; ECC position `i` receives `R[n-1-i]`; the
length and every other byte are as before. For every catalog of the right lengths. -/
def Obligations.BlockComputation : Prop :=
  ∀ (P : Params) (m : Memory) (p : BlockParams), GenLegal P.gen → p.Accepted m.length →
    ∃ (ds g R : List Byte) (m' : Memory),
      m' = computeBlock P m p.codeOff.toNat p.codeLen.toNat p.eccOff.toNat p.eccLen.toNat p.stride.toNat ∧
        ds.length = p.codeLen.toNat ∧
        (∀ t < ds.length, m[p.codeOff.toNat + t * p.stride.toNat]? = ds[t]?) ∧
        g ∈ P.gen ∧ g.length = p.eccLen.toNat ∧
        R = ds.foldl (lfsrStep P.field g) (List.replicate g.length 0) ∧ R.length = g.length ∧
        m'.length = m.length ∧
        (∀ i < g.length, m'[p.eccOff.toNat + i * p.stride.toNat]? = R[g.length - 1 - i]?) ∧
        ∀ a, (∀ i < g.length, a ≠ p.eccOff.toNat + i * p.stride.toNat) → m'[a]? = m[a]?

/-! ### ECCBLK -/

/-- R165: the four checks of `ECCBLK` in their order; the first that applies ends the command. -/
def Obligations.EccblkChecks : Prop :=
  ∀ s : State, s.fault = false →
    (s.param.eccLen.toNat ∉ genLen → exec .eccblk s = .next (unsupported s.param.eccLen s)) ∧
      (s.param.eccLen.toNat ∈ genLen → s.param.stride = 0 → exec .eccblk s = .next (faulted 5 s)) ∧
      (s.param.eccLen.toNat ∈ genLen → s.param.stride ≠ 0 → 0 < s.param.codeLen.toNat →
        s.buf.length ≤ s.param.codeOff.toNat + (s.param.codeLen.toNat - 1) * s.param.stride.toNat →
        exec .eccblk s = .next (faulted 4 s)) ∧
      (s.param.eccLen.toNat ∈ genLen → s.param.stride ≠ 0 →
        (s.param.codeLen.toNat = 0 ∨
          s.param.codeOff.toNat + (s.param.codeLen.toNat - 1) * s.param.stride.toNat < s.buf.length) →
        s.buf.length ≤ s.param.eccOff.toNat + (s.param.eccLen.toNat - 1) * s.param.stride.toNat →
        exec .eccblk s = .next (faulted 4 s))

/-- R162, R164, R166: when the checks pass `ECCBLK` completes: the data elements are the bytes at the data positions
before the command, ECC position `i` receives `R[n-1-i]`, every other byte is as before, `R[0..n-1]` keeps the
remainder and the rest of `R` is as before, the status registers are cleared, the response is `BUFLEN`, and nothing
else changes. -/
def Obligations.EccblkResult : Prop :=
  ∀ s : State, s.fault = false → s.param.Accepted s.buf.length →
    ∃ (ds g R : List Byte) (t : State),
      exec .eccblk s = .next t ∧
        ds.length = s.param.codeLen.toNat ∧
        (∀ j < ds.length, s.buf[s.param.codeOff.toNat + j * s.param.stride.toNat]? = ds[j]?) ∧
        g ∈ Rom.defaults.gen ∧ g.length = s.param.eccLen.toNat ∧ R = remainder Rom.defaults.field g ds ∧
        (∀ i < g.length, t.buf[s.param.eccOff.toNat + i * s.param.stride.toNat]? = R[g.length - 1 - i]?) ∧
        (∀ a, (∀ i < g.length, a ≠ s.param.eccOff.toNat + i * s.param.stride.toNat) → t.buf[a]? = s.buf[a]?) ∧
        t = { s with
          buf := t.buf, lfsr := R ++ s.lfsr.drop g.length
          status := 0, errinfo0 := 0, errinfo1 := 0
          responses := okResponse s.buflen :: s.responses }

/-- R170, R167: the bytes `ECCBLK` writes depend on nothing but the data bytes, the ECC length and the ROMs. -/
def Obligations.EccblkDependsOnDataOnly : Prop :=
  ∀ s s' t t' : State, s.fault = false → s'.fault = false → s.param.Accepted s.buf.length →
    s'.param.Accepted s'.buf.length → s.param.eccLen = s'.param.eccLen → s.param.codeLen = s'.param.codeLen →
    (∀ j < s.param.codeLen.toNat,
      s.buf[s.param.codeOff.toNat + j * s.param.stride.toNat]? =
        s'.buf[s'.param.codeOff.toNat + j * s'.param.stride.toNat]?) →
    exec .eccblk s = .next t → exec .eccblk s' = .next t' →
    ∀ i < s.param.eccLen.toNat,
      t.buf[s.param.eccOff.toNat + i * s.param.stride.toNat]? =
        t'.buf[s'.param.eccOff.toNat + i * s'.param.stride.toNat]?

/-! ### ENCODE -/

/-- R182: the seven checks of `ENCODE` in their order; the first that applies ends the command. -/
def Obligations.EncodeChecks : Prop :=
  ∀ s : State, s.fault = false →
    let D := s.desc.dcap.toNat
    let C := s.desc.cwcnt.toNat
    let N := s.desc.nblk.toNat
    let M := Rom.defaults.nblkMax
    let B := Rom.defaults.bufMax
    let E := if N = 1 then s.desc.errcw else s.desc.blkerr
    (s.buf.length ≠ D →
      exec .encode s =
        .next { s with
          status := 1, errinfo0 := s.desc.dcap, errinfo1 := s.buflen
          responses := mismatchResponse s.desc.dcap :: s.responses }) ∧
      (s.buf.length = D → N = 0 ∨ M < N → exec .encode s = .next (faulted 5 s)) ∧
      (s.buf.length = D → 1 ≤ N → N ≤ M → E.toNat ∉ genLen → exec .encode s = .next (unsupported E s)) ∧
      (s.buf.length = D → 1 ≤ N → N ≤ M → E.toNat ∈ genLen → C < D → exec .encode s = .next (faulted 5 s)) ∧
      (s.buf.length = D → 1 ≤ N → N ≤ M → E.toNat ∈ genLen → D ≤ C → B < C →
        exec .encode s = .next (faulted 3 s)) ∧
      (s.buf.length = D → N = 1 → E.toNat ∈ genLen → D ≤ C → C ≤ B → C < D + s.desc.errcw.toNat →
        exec .encode s = .next (faulted 4 s)) ∧
      (s.buf.length = D → 1 < N → N ≤ M → E.toNat ∈ genLen → D ≤ C → C ≤ B →
        (∃ b < N, (0 < s.desc.blockData (b + 1) ∧ C ≤ b + (s.desc.blockData (b + 1) - 1) * N) ∨
          C ≤ D + b + (s.desc.blkerr.toNat - 1) * N) →
        exec .encode s = .next (faulted 4 s))

/-- R181, R183: when the checks pass `ENCODE` completes: `BUFLEN` becomes `CWCNT`, the data codewords keep their
values and places, the status registers are cleared, the response is `CWCNT`, and nothing else but the buffer's new
bytes and `R` changes. -/
def Obligations.EncodeCompletes : Prop :=
  ∀ s : State, s.fault = false → s.buf.length = s.desc.dcap.toNat → s.desc.Accepted Rom.defaults →
    ∃ t : State,
      exec .encode s = .next t ∧ t.buf.length = s.desc.cwcnt.toNat ∧ t.buf.take s.desc.dcap.toNat = s.buf ∧
        t = { s with
          buf := t.buf, lfsr := t.lfsr
          status := 0, errinfo0 := 0, errinfo1 := 0
          responses := okResponse s.desc.cwcnt :: s.responses }

/-- R185, R73: with `N` > 1 the blocks are computed one after another in increasing `b` on the grown buffer, each with
the operands the rule gives, whatever the descriptor (also where data positions reach into the ECC region, R191);
`ERRCW` is not read. -/
def Obligations.EncodeRunsBlocksInOrder : Prop :=
  ∀ s : State, s.fault = false → s.buf.length = s.desc.dcap.toNat → s.desc.Accepted Rom.defaults →
    1 < s.desc.nblk.toNat →
    ∃ ms : Nat → Memory, ∃ t : State,
      ms 0 = s.buf ++ List.replicate (s.desc.cwcnt.toNat - s.desc.dcap.toNat) 0 ∧
        (∀ b < s.desc.nblk.toNat,
          ms (b + 1) =
            computeBlock Rom.defaults (ms b) b (s.desc.blkdata.getD b 0).toNat (s.desc.dcap.toNat + b)
              s.desc.blkerr.toNat s.desc.nblk.toNat) ∧
        exec .encode s = .next t ∧ t.buf = ms s.desc.nblk.toNat

/-- R184, R63: a single block: the buffer becomes the data, its error codewords in order, and zeros up to `CWCNT`. -/
def Obligations.EncodeSingleBlock : Prop :=
  ∀ s t : State, s.fault = false → s.buf.length = s.desc.dcap.toNat → s.desc.Accepted Rom.defaults →
    s.desc.nblk = 1 → exec .encode s = .next t →
    ∃ g ∈ Rom.defaults.gen, g.length = s.desc.errcw.toNat ∧
      t.buf =
        s.buf ++ eccOf Rom.defaults.field g s.buf ++
          List.replicate (s.desc.cwcnt.toNat - s.desc.dcap.toNat - s.desc.errcw.toNat) 0

/-- R62, R185, R186, R188: interleaved blocks whose data positions lie below `DCAP`: block `b` takes its data from the
indices `b + i·N`, its error codeword `i` lands at `D + b + i·N`, and every other index from `D` on holds 0. -/
def Obligations.EncodeInterleavedBlocks : Prop :=
  ∀ s t : State, s.fault = false → s.buf.length = s.desc.dcap.toNat → s.desc.Accepted Rom.defaults →
    1 < s.desc.nblk.toNat → DataBelowEcc s.desc → exec .encode s = .next t →
    ∃ g ∈ Rom.defaults.gen, g.length = s.desc.blkerr.toNat ∧
      (∀ b < s.desc.nblk.toNat, ∀ i < s.desc.blkerr.toNat,
        t.buf[s.desc.dcap.toNat + b + i * s.desc.nblk.toNat]? =
          (eccOf Rom.defaults.field g (blockBytes s.desc s.buf b))[i]?) ∧
      ∀ a, s.desc.dcap.toNat ≤ a → a < s.desc.cwcnt.toNat →
        (∀ b < s.desc.nblk.toNat, ∀ i < s.desc.blkerr.toNat, a ≠ s.desc.dcap.toNat + b + i * s.desc.nblk.toNat) →
        t.buf[a]? = some 0

/-- R73: where the data positions lie below `DCAP`, the blocks may be computed in any order: the buffer is the same,
for every choice of the open parameters with a legal catalog. -/
def Obligations.BlockOrderNotObservable : Prop :=
  ∀ (P : Params) (d : Desc) (w : Work) (order : List Nat), GenLegal P.gen → d.Accepted P → 1 < d.nblk.toNat →
    DataBelowEcc d → w.buf.length = d.cwcnt.toNat → order.Perm (List.range d.nblk.toNat) →
    (d.runBlocks P order w).buf = (d.runBlocks P (List.range d.nblk.toNat) w).buf

/-- R169, R186 on the default tables (log 4, 5, PRESUMED contents): after a successful `ENCODE` of a single block the
data and its error codewords form a Reed-Solomon codeword: they vanish at `α^1, ..., α^E`. -/
def Obligations.EncodedSymbolIsCodeword : Prop :=
  ∀ s t : State, s.fault = false → s.buf.length = s.desc.dcap.toNat → s.desc.Accepted Rom.defaults →
    s.desc.nblk = 1 → exec .encode s = .next t →
    ∀ i, 1 ≤ i → i ≤ s.desc.errcw.toNat →
      evalPoly Rom.defaults.field (t.buf.take (s.desc.dcap.toNat + s.desc.errcw.toNat)) (alogOf Rom.defaults.field i) = 0

/-- R192: under the tiling premises every index of the encoded buffer is a data position or an ECC position of exactly
one block. -/
def Obligations.TilingCoversTheBuffer : Prop :=
  ∀ d : Desc, d.TilesInterleaved →
    (∀ a < d.dcap.toNat, ∃! p : Nat × Nat,
      p.1 < d.nblk.toNat ∧ p.2 < d.blockData (p.1 + 1) ∧ a = p.1 + p.2 * d.nblk.toNat) ∧
      (∀ a, d.dcap.toNat ≤ a → a < d.cwcnt.toNat → ∃! p : Nat × Nat,
        p.1 < d.nblk.toNat ∧ p.2 < d.blkerr.toNat ∧ a = d.dcap.toNat + p.1 + p.2 * d.nblk.toNat) ∧
      DataBelowEcc d

/-- R187: `ENCODE` depends on the buffer and the descriptor only: not on `RES`, `GSEL`, the status registers, the
parameter registers, `R` or any earlier command. -/
def Obligations.EncodeDependsOnBufferAndDescriptor : Prop :=
  ∀ s s' t t' : State, s.fault = false → s'.fault = false → s.buf = s'.buf → s.desc = s'.desc →
    exec .encode s = .next t → exec .encode s' = .next t' →
    t.buf = t'.buf ∧ t.fault = t'.fault ∧ t.responses.head? = t'.responses.head? ∧
      (t.fault = false → t.status = t'.status ∧ t.errinfo0 = t'.errinfo0 ∧ t.errinfo1 = t'.errinfo1) ∧
      (t.fault = true → t.fcause = t'.fcause)

/-- R190: a second `ENCODE` on the buffer the first one grew fails the count check, unless `CWCNT` = `DCAP`. -/
def Obligations.SecondEncodeFailsCountCheck : Prop :=
  ∀ s t : State, s.fault = false → s.buf.length = s.desc.dcap.toNat → s.desc.Accepted Rom.defaults →
    s.desc.cwcnt ≠ s.desc.dcap → exec .encode s = .next t →
    exec .encode t =
      .next { t with
        status := 1, errinfo0 := s.desc.dcap, errinfo1 := s.desc.cwcnt
        responses := mismatchResponse s.desc.dcap :: t.responses }

/-! ### Host access -/

/-- R200: `WRREG r, v` for every register number: the read-write registers one by one, and the fault
`RegisterAccess` for every other number; a faulted instance answers FAULT. -/
def Obligations.WrregResult : Prop :=
  ∀ (v : Len) (s : State),
    (∀ r : RegNum, encode (.wrreg r v) = (0x10#8 ++ r ++ v : Word)) ∧
      (s.fault = true → ∀ r : RegNum, exec (.wrreg r v) s = .next (answered (faultResponse s.fcause) s)) ∧
      (s.fault = false →
        (exec (.wrreg 0x08 v) s = .next (answered (okResponse 0) { s with desc := { s.desc with dcap := v } }) ∧
          exec (.wrreg 0x09 v) s = .next (answered (okResponse 0) { s with desc := { s.desc with cwcnt := v } }) ∧
          exec (.wrreg 0x0A v) s = .next (answered (okResponse 0) { s with desc := { s.desc with nblk := v } }) ∧
          exec (.wrreg 0x0B v) s = .next (answered (okResponse 0) { s with desc := { s.desc with errcw := v } }) ∧
          exec (.wrreg 0x0C v) s = .next (answered (okResponse 0) { s with desc := { s.desc with blkerr := v } })) ∧
          (exec (.wrreg 0x10 v) s = .next (answered (okResponse 0) { s with param := { s.param with codeOff := v } }) ∧
            exec (.wrreg 0x11 v) s = .next (answered (okResponse 0) { s with param := { s.param with codeLen := v } }) ∧
            exec (.wrreg 0x12 v) s = .next (answered (okResponse 0) { s with param := { s.param with eccOff := v } }) ∧
            exec (.wrreg 0x13 v) s = .next (answered (okResponse 0) { s with param := { s.param with eccLen := v } }) ∧
            exec (.wrreg 0x14 v) s = .next (answered (okResponse 0) { s with param := { s.param with stride := v } })) ∧
          (∀ m, 1 ≤ m → m ≤ Rom.defaults.nblkMax →
            exec (.wrreg (BitVec.ofNat 8 (0x20 + (m - 1))) v) s =
              .next (answered (okResponse 0) { s with desc := { s.desc with blkdata := s.desc.blkdata.set (m - 1) v } })) ∧
          ∀ r : RegNum,
            r.toNat ≤ 0x07 ∨ (0x0D ≤ r.toNat ∧ r.toNat ≤ 0x0F) ∨ (0x15 ≤ r.toNat ∧ r.toNat ≤ 0x1F) ∨
                0x20 + Rom.defaults.nblkMax ≤ r.toNat →
            exec (.wrreg r v) s = .next (faulted 2 s))

/-- R201, R28: `RDREG r` for every register number: the registers one by one, and the fault `RegisterAccess` for every
unimplemented number; a faulted instance answers FAULT. -/
def Obligations.RdregResult : Prop :=
  ∀ s : State,
    (∀ r : RegNum, encode (.rdreg r) = (0x11#8 ++ r ++ 0x0000#16 : Word)) ∧
      (s.fault = true → ∀ r : RegNum, exec (.rdreg r) s = .next (answered (faultResponse s.fcause) s)) ∧
      (s.fault = false →
        (∀ rv ∈ [ (0x00#8, s.status), (0x01#8, s.errinfo0), (0x02#8, s.errinfo1), (0x03#8, s.res.setWidth 16),
            (0x04#8, s.gsel), (0x05#8, s.glen), (0x06#8, BitVec.ofNat 16 s.buf.length), (0x08#8, s.desc.dcap),
            (0x09#8, s.desc.cwcnt), (0x0A#8, s.desc.nblk), (0x0B#8, s.desc.errcw), (0x0C#8, s.desc.blkerr),
            (0x10#8, s.param.codeOff), (0x11#8, s.param.codeLen), (0x12#8, s.param.eccOff), (0x13#8, s.param.eccLen),
            (0x14#8, s.param.stride) ],
          exec (.rdreg rv.1) s = .next (answered (okResponse rv.2) s)) ∧
          (∀ m v, 1 ≤ m → m ≤ Rom.defaults.nblkMax → s.desc.blkdata[m - 1]? = some v →
            exec (.rdreg (BitVec.ofNat 8 (0x20 + (m - 1)))) s = .next (answered (okResponse v) s)) ∧
          ∀ r : RegNum,
            r.toNat = 0x07 ∨ (0x0D ≤ r.toNat ∧ r.toNat ≤ 0x0F) ∨ (0x15 ≤ r.toNat ∧ r.toNat ≤ 0x1F) ∨
                0x20 + Rom.defaults.nblkMax ≤ r.toNat →
            exec (.rdreg r) s = .next (faulted 2 s))

/-- R200, R201, R31: after a `WRREG` that ends OK, a read of that register answers the value written and a read of any
other register answers what it answered before. -/
def Obligations.WrittenRegisterReadsBack : Prop :=
  ∀ (r r' : RegNum) (v : Len) (s t : State), s.Inv Rom.defaults → s.fault = false → exec (.wrreg r v) s = .next t →
    t.fault = false →
    exec (.rdreg r) t = .next (answered (okResponse v) t) ∧
      (r' ≠ r → ∀ x, exec (.rdreg r') s = .next (answered (okResponse x) s) →
        exec (.rdreg r') t = .next (answered (okResponse x) t))

/-- R202: `BUFCLR` empties the buffer. -/
def Obligations.BufclrResult : Prop :=
  ∀ s : State,
    encode .bufclr = 0x12000000#32 ∧
      (s.fault = false → exec .bufclr s = .next (answered (okResponse 0) { s with buf := [] })) ∧
      (s.fault = true → exec .bufclr s = .next (answered (faultResponse s.fcause) s))

/-- R203: `BUFPUSH v8` appends one byte and answers the new length, or faults `BufferCapacity` on a full buffer. -/
def Obligations.BufpushResult : Prop :=
  ∀ (v8 : Byte) (s : State),
    encode (.bufpush v8) = (0x13#8 ++ 0x0000#16 ++ v8 : Word) ∧
      (s.fault = false → s.buf.length ≠ Rom.defaults.bufMax →
        exec (.bufpush v8) s =
          .next (answered (okResponse (BitVec.ofNat 16 (s.buf.length + 1))) { s with buf := s.buf ++ [v8] })) ∧
      (s.fault = false → s.buf.length = Rom.defaults.bufMax → exec (.bufpush v8) s = .next (faulted 3 s)) ∧
      (s.fault = true → exec (.bufpush v8) s = .next (answered (faultResponse s.fcause) s))

/-- R204: `BUFRD i` answers the byte at index `i` and writes nothing, or faults `IndexRange` for `i ≥ BUFLEN`. -/
def Obligations.BufrdResult : Prop :=
  ∀ (i : Len) (s : State),
    encode (.bufrd i) = (0x14#8 ++ 0x00#8 ++ i : Word) ∧
      (s.fault = false → ∀ v, s.buf[i.toNat]? = some v →
        exec (.bufrd i) s = .next (answered (okResponse (v.setWidth 16)) s)) ∧
      (s.fault = false → s.buf.length ≤ i.toNat → exec (.bufrd i) s = .next (faulted 4 s)) ∧
      (s.fault = true → exec (.bufrd i) s = .next (answered (faultResponse s.fcause) s))

/-- R100: the pseudo-instructions, for every legal choice of the open parameters, on an instance that has not faulted:
`LOADBUF` leaves exactly its bytes in the buffer, `SETDESC`, `SETBLK` and `SETPARAM` write the registers they name, and
`DUMPBUF` answers the bytes of the buffer in index order. -/
def Obligations.PseudoInstructionsDoWhatTheyName : Prop :=
  ∀ (P : Params) (s : State), ParamsLegal P → s.fault = false →
    (∀ vs : List Byte, vs.length ≤ P.bufMax →
      ∃ rs : List Word, runProgram P (Pseudo.expand (.loadbuf (vs.map BitVec.toNat))) s =
        { s with buf := vs, responses := rs ++ s.responses }) ∧
      (∀ a b c d e : Len,
        runProgram P (Pseudo.expand (.setdesc a.toNat b.toNat c.toNat d.toNat e.toNat)) s =
          { s with
            desc := { s.desc with dcap := a, cwcnt := b, nblk := c, errcw := d, blkerr := e }
            responses := List.replicate 5 (okResponse 0) ++ s.responses }) ∧
      (∀ (m : Nat) (v : Len), 1 ≤ m → m ≤ P.nblkMax →
        runProgram P (Pseudo.expand (.setblk m v.toNat)) s =
          { s with
            desc := { s.desc with blkdata := s.desc.blkdata.set (m - 1) v }
            responses := okResponse 0 :: s.responses }) ∧
      (∀ a b c d e : Len,
        runProgram P (Pseudo.expand (.setparam a.toNat b.toNat c.toNat d.toNat e.toNat)) s =
          { s with
            param := { codeOff := a, codeLen := b, eccOff := c, eccLen := d, stride := e }
            responses := List.replicate 5 (okResponse 0) ++ s.responses }) ∧
      (s.buf.length ≤ P.bufMax →
        runProgram P (Pseudo.expand (.dumpbuf s.buf.length)) s =
          { s with responses := (s.buf.map fun v => okResponse (v.setWidth 16)).reverse ++ s.responses })

/-! ### How commands end -/

/-- R227, R36: while `FAULT` is 1 every word, legal or not, is answered FAULT with the original cause and changes
nothing; and no step but a reset leaves `FAULT` = 0. -/
def Obligations.FaultIsSticky : Prop :=
  (∀ (w : Word) (s : State), s.fault = true → runWord w s = .next (answered (faultResponse s.fcause) s)) ∧
    ∀ s t : State, s.fault = true → s.inputs.head? ≠ some .reset → step s = .next t →
      t.fault = true ∧ t.fcause = s.fcause

/-- R227, R224: a command that faults sets `FAULT`, sets `FCAUSE` to the cause and answers FAULT with it, and changes
nothing else; and each cause is raised by the commands the rule lists and no other. -/
def Obligations.FaultsChangeNothingElse : Prop :=
  ∀ (i : Instr) (s t : State), s.fault = false → exec i s = .next t → t.fault = true →
    t = faulted t.fcause s ∧
      ((t.fcause = 2 ∧ ((∃ r v, i = .wrreg r v) ∨ ∃ r, i = .rdreg r)) ∨
        (t.fcause = 3 ∧ ((∃ v, i = .bufpush v) ∨ i = .encode)) ∨
        (t.fcause = 4 ∧ ((∃ k, i = .bufrd k) ∨ i = .eccblk ∨ i = .encode ∨ ∃ k, i = .genrd k)) ∨
        (t.fcause = 5 ∧ (i = .eccblk ∨ i = .encode)))

/-- R226, R220: a command that ends in a documented error is a `GENFIND`, an `ECCBLK` or an `ENCODE`; it writes
`STATUS`, `ERRINFO0`, `ERRINFO1` and the response, a `GENFIND` clears `GSEL` and `GLEN`, and nothing else changes. -/
def Obligations.ErrorsChangeStatusOnly : Prop :=
  ∀ (i : Instr) (s t : State), s.fault = false → exec i s = .next t →
    ∀ r, t.responses.head? = some r → r.extractLsb' 30 2 = 1#2 →
      (i = .encode ∧ s.buf.length ≠ s.desc.dcap.toNat ∧
          t = { s with
            status := 1, errinfo0 := s.desc.dcap, errinfo1 := s.buflen
            responses := mismatchResponse s.desc.dcap :: s.responses }) ∨
        (i = .encode ∧ s.desc.nblk = 1 ∧ s.desc.errcw.toNat ∉ genLen ∧ t = unsupported s.desc.errcw s) ∨
        (i = .encode ∧ s.desc.nblk ≠ 1 ∧ s.desc.blkerr.toNat ∉ genLen ∧ t = unsupported s.desc.blkerr s) ∨
        (i = .eccblk ∧ s.param.eccLen.toNat ∉ genLen ∧ t = unsupported s.param.eccLen s) ∨
        ∃ n, i = .genfind n ∧ n.toNat ∉ genLen ∧ t = unsupported n { s with gsel := 0, glen := 0 }

/-- R229, R69: a command either ends OK or has written nothing to `BUF` and `BUFLEN`. -/
def Obligations.NoPartialOutput : Prop :=
  ∀ (i : Instr) (s t : State), exec i s = .next t →
    EndedOk t ∨ (t.buf = s.buf ∧ t.lfsr = s.lfsr ∧ t.desc = s.desc ∧ t.param = s.param ∧ t.res = s.res)

/-- R97, R41: every command returns exactly one response word, one of those the rule allows. -/
def Obligations.OneLegalResponsePerCommand : Prop :=
  ∀ (w : Word) (s : State), s.Inv Rom.defaults →
    ∃ r t, runWord w s = .next t ∧ t.responses = r :: s.responses ∧ LegalResponse r ∧ t.inputs = s.inputs

/-- R25: `BUFLEN` changes in exactly three ways. -/
def Obligations.BuflenChangesInThreeWays : Prop :=
  ∀ (i : Instr) (s t : State), exec i s = .next t →
    t.buf.length = s.buf.length ∨ (i = .bufclr ∧ t.buf.length = 0) ∨
      ((∃ v, i = .bufpush v) ∧ t.buf.length = s.buf.length + 1) ∨
      (i = .encode ∧ t.buf.length = s.desc.cwcnt.toNat ∧ EndedOk t)

/-- R34: `STATUS`, `ERRINFO0` and `ERRINFO1` always describe the most recent `GENFIND`, `ECCBLK` or `ENCODE` that did
not fault: 0 when it ended OK, the kind and the requested or expected length when it ended in an error; no other command
changes them. -/
def Obligations.StatusDescribesLastOfThree : Prop :=
  ∀ (i : Instr) (s t : State), s.fault = false → exec i s = .next t →
    (((∃ n, i = .genfind n) ∨ i = .eccblk ∨ i = .encode) → t.fault = false →
      ∃ r, t.responses.head? = some r ∧
        ((r.extractLsb' 30 2 = 0#2 ∧ t.status = 0 ∧ t.errinfo0 = 0 ∧ t.errinfo1 = 0) ∨
          (r.extractLsb' 30 2 = 1#2 ∧ t.status = (r.extractLsb' 24 6).setWidth 16 ∧ t.errinfo0 = r.extractLsb' 0 16))) ∧
      ((∀ n, i ≠ .genfind n) ∧ i ≠ .eccblk ∧ i ≠ .encode ∨ t.fault = true →
        t.status = s.status ∧ t.errinfo0 = s.errinfo0 ∧ t.errinfo1 = s.errinfo1)

/-! ### Frames -/

/-- R37: the commands that store nothing to the buffer leave every byte of it and all of `R` unchanged, and every
register but those the matrix says they write: `GFMUL` writes `RES`, `GENFIND` writes `GSEL`, `GLEN` and the status
registers, `WRREG` writes the register it selects, and `GENRD`, `RDREG`, `BUFRD` write none. `FAULT` and `FCAUSE` change
only when the command faults (R227), and the host's list never does. -/
def Obligations.FrameOfNonStoringCommands : Prop :=
  ∀ (i : Instr) (s t : State), exec i s = .next t →
    (∃ a b, i = .gfmul a b) ∨ (∃ n, i = .genfind n) ∨ (∃ k, i = .genrd k) ∨ (∃ r v, i = .wrreg r v) ∨
      (∃ r, i = .rdreg r) ∨ (∃ k, i = .bufrd k) →
    (∀ a, t.buf.read a = s.buf.read a) ∧ t.buflen = s.buflen ∧ t.lfsr = s.lfsr ∧ t.inputs = s.inputs ∧
      ((∀ r v, i ≠ .wrreg r v) → t.desc = s.desc ∧ t.param = s.param) ∧
      (∀ r v, i = .wrreg r v → ∀ (r' : RegNum) (x : Reg), r' ≠ r → regOf Rom.defaults r' = some x →
        t.readReg x = s.readReg x) ∧
      ((∀ a b, i ≠ .gfmul a b) → t.res = s.res) ∧
      ((∀ n, i ≠ .genfind n) →
        t.gsel = s.gsel ∧ t.glen = s.glen ∧ t.status = s.status ∧ t.errinfo0 = s.errinfo0 ∧ t.errinfo1 = s.errinfo1) ∧
      (EndedOk t ∨ (∃ n, i = .genfind n) → t.fault = s.fault ∧ t.fcause = s.fcause)

/-- R37: what the commands that store to the buffer leave unchanged. `BUFPUSH` stores the byte at index `BUFLEN`,
`ECCBLK` the bytes at its ECC positions, `ENCODE` the bytes from `BUFLEN` on; `BUFCLR` leaves no byte. Every other byte
reads as before; the registers change only as the matrix says (the status registers by `ECCBLK` and `ENCODE`). -/
def Obligations.FrameOfStoringCommands : Prop :=
  ∀ (i : Instr) (s t : State), exec i s = .next t →
    i = .eccblk ∨ i = .encode ∨ i = .bufclr ∨ (∃ v, i = .bufpush v) →
    t.desc = s.desc ∧ t.param = s.param ∧ t.res = s.res ∧ t.gsel = s.gsel ∧ t.glen = s.glen ∧ t.inputs = s.inputs ∧
      (i ≠ .eccblk → i ≠ .encode →
        t.status = s.status ∧ t.errinfo0 = s.errinfo0 ∧ t.errinfo1 = s.errinfo1 ∧ t.lfsr = s.lfsr) ∧
      (i = .eccblk → t.buflen = s.buflen ∧
        ∀ a, (∀ k < s.param.eccLen.toNat, a ≠ stridedIndex s.param.eccOff.toNat s.param.stride.toNat k) →
          t.buf.read a = s.buf.read a) ∧
      (i = .encode → ∀ a, a < s.buf.length → t.buf.read a = s.buf.read a) ∧
      ((∃ v, i = .bufpush v) → ∀ a, a ≠ s.buf.length → t.buf.read a = s.buf.read a) ∧
      (i = .bufclr → s.fault = false → ∀ a, t.buf.read a = none) ∧
      (EndedOk t → t.fault = s.fault ∧ t.fcause = s.fcause)

/-! ### Whole-machine rules -/

/-- R27, R41: what `R` holds never influences anything but `R`: two runs that differ only in `R` stay so, whatever the
host does. (So the reset value the model gives `R`, log 1, is in no claim.) -/
def Obligations.HiddenRegisterIsUnobservable : Prop :=
  ∀ (s t : State) (R : List Byte), step s = .next t →
    ∃ R', step { s with lfsr := R } = .next { t with lfsr := R' }

/-- R259: the units do not disturb each other: a `GFMUL`, a `GENFIND` or a `GENRD` that does not fault, run before an
`ENCODE`, changes neither the buffer nor the response the `ENCODE` gives. -/
def Obligations.UnitsDoNotInterfere : Prop :=
  ∀ (i : Instr) (s t u v : State), (∃ a b, i = .gfmul a b) ∨ (∃ n, i = .genfind n) ∨ (∃ k, i = .genrd k) →
    exec i s = .next t → t.fault = false → exec .encode s = .next u → exec .encode t = .next v →
    v.buf = u.buf ∧ v.responses.head? = u.responses.head? ∧ v.desc = u.desc ∧ v.fault = u.fault

/-- R234: instances share nothing mutable: a step of one leaves every other as it is and is a step of that instance
alone, and steps of two different instances may be made in either order. That instances move one at a time, by a
schedule, is the model's choice (log 10, DESIGN CHOICE). -/
def Obligations.InstancesAreIndependent : Prop :=
  ∀ (sys : List State) (j k : Nat), j ≠ k →
    (∀ sys', stepAt j sys = .next sys' →
      sys'[k]? = sys[k]? ∧ ∀ s, sys[j]? = some s → ∃ t, step s = .next t ∧ sys'[j]? = some t) ∧
      stepSchedule [j, k] sys = stepSchedule [k, j] sys
end

