-- ==== Sys2Proof/Laws/State.lean ====
section
/-! SUPPORT. One lemma per field per update of State, each true by its definition, so that no later proof unfolds a
record update. -/

namespace Sys2Proof.Machine

open Sys2Proof.Config

/-! ### A response is returned -/

@[simp] theorem respond_desc (r : Word) (s : State) : (s.respond r).desc = s.desc := rfl
@[simp] theorem respond_param (r : Word) (s : State) : (s.respond r).param = s.param := rfl
@[simp] theorem respond_buf (r : Word) (s : State) : (s.respond r).buf = s.buf := rfl
@[simp] theorem respond_lfsr (r : Word) (s : State) : (s.respond r).lfsr = s.lfsr := rfl
@[simp] theorem respond_res (r : Word) (s : State) : (s.respond r).res = s.res := rfl
@[simp] theorem respond_gsel (r : Word) (s : State) : (s.respond r).gsel = s.gsel := rfl
@[simp] theorem respond_glen (r : Word) (s : State) : (s.respond r).glen = s.glen := rfl
@[simp] theorem respond_status (r : Word) (s : State) : (s.respond r).status = s.status := rfl
@[simp] theorem respond_errinfo0 (r : Word) (s : State) : (s.respond r).errinfo0 = s.errinfo0 := rfl
@[simp] theorem respond_errinfo1 (r : Word) (s : State) : (s.respond r).errinfo1 = s.errinfo1 := rfl
@[simp] theorem respond_fault (r : Word) (s : State) : (s.respond r).fault = s.fault := rfl
@[simp] theorem respond_fcause (r : Word) (s : State) : (s.respond r).fcause = s.fcause := rfl
@[simp] theorem respond_inputs (r : Word) (s : State) : (s.respond r).inputs = s.inputs := rfl
@[simp] theorem respond_responses (r : Word) (s : State) : (s.respond r).responses = r :: s.responses := rfl

/-! ### The host takes an input off its list -/

@[simp] theorem consume_desc (rest : List HostInput) (s : State) : (s.consume rest).desc = s.desc := rfl
@[simp] theorem consume_param (rest : List HostInput) (s : State) : (s.consume rest).param = s.param := rfl
@[simp] theorem consume_buf (rest : List HostInput) (s : State) : (s.consume rest).buf = s.buf := rfl
@[simp] theorem consume_lfsr (rest : List HostInput) (s : State) : (s.consume rest).lfsr = s.lfsr := rfl
@[simp] theorem consume_res (rest : List HostInput) (s : State) : (s.consume rest).res = s.res := rfl
@[simp] theorem consume_gsel (rest : List HostInput) (s : State) : (s.consume rest).gsel = s.gsel := rfl
@[simp] theorem consume_glen (rest : List HostInput) (s : State) : (s.consume rest).glen = s.glen := rfl
@[simp] theorem consume_status (rest : List HostInput) (s : State) : (s.consume rest).status = s.status := rfl
@[simp] theorem consume_errinfo0 (rest : List HostInput) (s : State) : (s.consume rest).errinfo0 = s.errinfo0 := rfl
@[simp] theorem consume_errinfo1 (rest : List HostInput) (s : State) : (s.consume rest).errinfo1 = s.errinfo1 := rfl
@[simp] theorem consume_fault (rest : List HostInput) (s : State) : (s.consume rest).fault = s.fault := rfl
@[simp] theorem consume_fcause (rest : List HostInput) (s : State) : (s.consume rest).fcause = s.fcause := rfl
@[simp] theorem consume_inputs (rest : List HostInput) (s : State) : (s.consume rest).inputs = rest := rfl
@[simp] theorem consume_responses (rest : List HostInput) (s : State) : (s.consume rest).responses = s.responses := rfl

/-! ### The host presents a word -/

@[simp] theorem present_desc (w : Word) (s : State) : (s.present w).desc = s.desc := rfl
@[simp] theorem present_param (w : Word) (s : State) : (s.present w).param = s.param := rfl
@[simp] theorem present_buf (w : Word) (s : State) : (s.present w).buf = s.buf := rfl
@[simp] theorem present_lfsr (w : Word) (s : State) : (s.present w).lfsr = s.lfsr := rfl
@[simp] theorem present_res (w : Word) (s : State) : (s.present w).res = s.res := rfl
@[simp] theorem present_gsel (w : Word) (s : State) : (s.present w).gsel = s.gsel := rfl
@[simp] theorem present_glen (w : Word) (s : State) : (s.present w).glen = s.glen := rfl
@[simp] theorem present_status (w : Word) (s : State) : (s.present w).status = s.status := rfl
@[simp] theorem present_errinfo0 (w : Word) (s : State) : (s.present w).errinfo0 = s.errinfo0 := rfl
@[simp] theorem present_errinfo1 (w : Word) (s : State) : (s.present w).errinfo1 = s.errinfo1 := rfl
@[simp] theorem present_fault (w : Word) (s : State) : (s.present w).fault = s.fault := rfl
@[simp] theorem present_fcause (w : Word) (s : State) : (s.present w).fcause = s.fcause := rfl
@[simp] theorem present_inputs (w : Word) (s : State) : (s.present w).inputs = .command w :: s.inputs := rfl
@[simp] theorem present_responses (w : Word) (s : State) : (s.present w).responses = s.responses := rfl

/-! ### Success is recorded -/

@[simp] theorem recordSuccess_desc (s : State) : (s.recordSuccess).desc = s.desc := rfl
@[simp] theorem recordSuccess_param (s : State) : (s.recordSuccess).param = s.param := rfl
@[simp] theorem recordSuccess_buf (s : State) : (s.recordSuccess).buf = s.buf := rfl
@[simp] theorem recordSuccess_lfsr (s : State) : (s.recordSuccess).lfsr = s.lfsr := rfl
@[simp] theorem recordSuccess_res (s : State) : (s.recordSuccess).res = s.res := rfl
@[simp] theorem recordSuccess_gsel (s : State) : (s.recordSuccess).gsel = s.gsel := rfl
@[simp] theorem recordSuccess_glen (s : State) : (s.recordSuccess).glen = s.glen := rfl
@[simp] theorem recordSuccess_status (s : State) : (s.recordSuccess).status = 0 := rfl
@[simp] theorem recordSuccess_errinfo0 (s : State) : (s.recordSuccess).errinfo0 = 0 := rfl
@[simp] theorem recordSuccess_errinfo1 (s : State) : (s.recordSuccess).errinfo1 = 0 := rfl
@[simp] theorem recordSuccess_fault (s : State) : (s.recordSuccess).fault = s.fault := rfl
@[simp] theorem recordSuccess_fcause (s : State) : (s.recordSuccess).fcause = s.fcause := rfl
@[simp] theorem recordSuccess_inputs (s : State) : (s.recordSuccess).inputs = s.inputs := rfl
@[simp] theorem recordSuccess_responses (s : State) : (s.recordSuccess).responses = s.responses := rfl

/-! ### An error is recorded -/

@[simp] theorem recordError_desc (e : DocError) (s : State) : (s.recordError e).desc = s.desc := rfl
@[simp] theorem recordError_param (e : DocError) (s : State) : (s.recordError e).param = s.param := rfl
@[simp] theorem recordError_buf (e : DocError) (s : State) : (s.recordError e).buf = s.buf := rfl
@[simp] theorem recordError_lfsr (e : DocError) (s : State) : (s.recordError e).lfsr = s.lfsr := rfl
@[simp] theorem recordError_res (e : DocError) (s : State) : (s.recordError e).res = s.res := rfl
@[simp] theorem recordError_gsel (e : DocError) (s : State) : (s.recordError e).gsel = s.gsel := rfl
@[simp] theorem recordError_glen (e : DocError) (s : State) : (s.recordError e).glen = s.glen := rfl
@[simp] theorem recordError_status (e : DocError) (s : State) : (s.recordError e).status = e.kind := rfl
@[simp] theorem recordError_errinfo0 (e : DocError) (s : State) : (s.recordError e).errinfo0 = e.info0 := rfl
@[simp] theorem recordError_errinfo1 (e : DocError) (s : State) : (s.recordError e).errinfo1 = e.info1 := rfl
@[simp] theorem recordError_fault (e : DocError) (s : State) : (s.recordError e).fault = s.fault := rfl
@[simp] theorem recordError_fcause (e : DocError) (s : State) : (s.recordError e).fcause = s.fcause := rfl
@[simp] theorem recordError_inputs (e : DocError) (s : State) : (s.recordError e).inputs = s.inputs := rfl
@[simp] theorem recordError_responses (e : DocError) (s : State) : (s.recordError e).responses = s.responses := rfl

/-! ### An OK response -/

@[simp] theorem respondOk_desc (d : Len) (s : State) : (respondOk d s).desc = s.desc := rfl
@[simp] theorem respondOk_param (d : Len) (s : State) : (respondOk d s).param = s.param := rfl
@[simp] theorem respondOk_buf (d : Len) (s : State) : (respondOk d s).buf = s.buf := rfl
@[simp] theorem respondOk_lfsr (d : Len) (s : State) : (respondOk d s).lfsr = s.lfsr := rfl
@[simp] theorem respondOk_res (d : Len) (s : State) : (respondOk d s).res = s.res := rfl
@[simp] theorem respondOk_gsel (d : Len) (s : State) : (respondOk d s).gsel = s.gsel := rfl
@[simp] theorem respondOk_glen (d : Len) (s : State) : (respondOk d s).glen = s.glen := rfl
@[simp] theorem respondOk_status (d : Len) (s : State) : (respondOk d s).status = s.status := rfl
@[simp] theorem respondOk_errinfo0 (d : Len) (s : State) : (respondOk d s).errinfo0 = s.errinfo0 := rfl
@[simp] theorem respondOk_errinfo1 (d : Len) (s : State) : (respondOk d s).errinfo1 = s.errinfo1 := rfl
@[simp] theorem respondOk_fault (d : Len) (s : State) : (respondOk d s).fault = s.fault := rfl
@[simp] theorem respondOk_fcause (d : Len) (s : State) : (respondOk d s).fcause = s.fcause := rfl
@[simp] theorem respondOk_inputs (d : Len) (s : State) : (respondOk d s).inputs = s.inputs := rfl
@[simp] theorem respondOk_responses (d : Len) (s : State) : (respondOk d s).responses = okWord d :: s.responses := rfl

/-! ### A documented error -/

@[simp] theorem raiseError_desc (e : DocError) (s : State) : (raiseError e s).desc = s.desc := rfl
@[simp] theorem raiseError_param (e : DocError) (s : State) : (raiseError e s).param = s.param := rfl
@[simp] theorem raiseError_buf (e : DocError) (s : State) : (raiseError e s).buf = s.buf := rfl
@[simp] theorem raiseError_lfsr (e : DocError) (s : State) : (raiseError e s).lfsr = s.lfsr := rfl
@[simp] theorem raiseError_res (e : DocError) (s : State) : (raiseError e s).res = s.res := rfl
@[simp] theorem raiseError_gsel (e : DocError) (s : State) : (raiseError e s).gsel = s.gsel := rfl
@[simp] theorem raiseError_glen (e : DocError) (s : State) : (raiseError e s).glen = s.glen := rfl
@[simp] theorem raiseError_status (e : DocError) (s : State) : (raiseError e s).status = e.kind := rfl
@[simp] theorem raiseError_errinfo0 (e : DocError) (s : State) : (raiseError e s).errinfo0 = e.info0 := rfl
@[simp] theorem raiseError_errinfo1 (e : DocError) (s : State) : (raiseError e s).errinfo1 = e.info1 := rfl
@[simp] theorem raiseError_fault (e : DocError) (s : State) : (raiseError e s).fault = s.fault := rfl
@[simp] theorem raiseError_fcause (e : DocError) (s : State) : (raiseError e s).fcause = s.fcause := rfl
@[simp] theorem raiseError_inputs (e : DocError) (s : State) : (raiseError e s).inputs = s.inputs := rfl
@[simp] theorem raiseError_responses (e : DocError) (s : State) : (raiseError e s).responses = errorWord e :: s.responses := rfl

/-! ### A spec fault -/

@[simp] theorem takeFault_desc (c : FaultCause) (s : State) : (takeFault c s).desc = s.desc := rfl
@[simp] theorem takeFault_param (c : FaultCause) (s : State) : (takeFault c s).param = s.param := rfl
@[simp] theorem takeFault_buf (c : FaultCause) (s : State) : (takeFault c s).buf = s.buf := rfl
@[simp] theorem takeFault_lfsr (c : FaultCause) (s : State) : (takeFault c s).lfsr = s.lfsr := rfl
@[simp] theorem takeFault_res (c : FaultCause) (s : State) : (takeFault c s).res = s.res := rfl
@[simp] theorem takeFault_gsel (c : FaultCause) (s : State) : (takeFault c s).gsel = s.gsel := rfl
@[simp] theorem takeFault_glen (c : FaultCause) (s : State) : (takeFault c s).glen = s.glen := rfl
@[simp] theorem takeFault_status (c : FaultCause) (s : State) : (takeFault c s).status = s.status := rfl
@[simp] theorem takeFault_errinfo0 (c : FaultCause) (s : State) : (takeFault c s).errinfo0 = s.errinfo0 := rfl
@[simp] theorem takeFault_errinfo1 (c : FaultCause) (s : State) : (takeFault c s).errinfo1 = s.errinfo1 := rfl
@[simp] theorem takeFault_fault (c : FaultCause) (s : State) : (takeFault c s).fault = true := rfl
@[simp] theorem takeFault_fcause (c : FaultCause) (s : State) : (takeFault c s).fcause = c.code := rfl
@[simp] theorem takeFault_inputs (c : FaultCause) (s : State) : (takeFault c s).inputs = s.inputs := rfl
@[simp] theorem takeFault_responses (c : FaultCause) (s : State) : (takeFault c s).responses = faultWord c.code :: s.responses := rfl

/-! ### The answer of a faulted instance -/

@[simp] theorem answerFault_desc (s : State) : (answerFault s).desc = s.desc := rfl
@[simp] theorem answerFault_param (s : State) : (answerFault s).param = s.param := rfl
@[simp] theorem answerFault_buf (s : State) : (answerFault s).buf = s.buf := rfl
@[simp] theorem answerFault_lfsr (s : State) : (answerFault s).lfsr = s.lfsr := rfl
@[simp] theorem answerFault_res (s : State) : (answerFault s).res = s.res := rfl
@[simp] theorem answerFault_gsel (s : State) : (answerFault s).gsel = s.gsel := rfl
@[simp] theorem answerFault_glen (s : State) : (answerFault s).glen = s.glen := rfl
@[simp] theorem answerFault_status (s : State) : (answerFault s).status = s.status := rfl
@[simp] theorem answerFault_errinfo0 (s : State) : (answerFault s).errinfo0 = s.errinfo0 := rfl
@[simp] theorem answerFault_errinfo1 (s : State) : (answerFault s).errinfo1 = s.errinfo1 := rfl
@[simp] theorem answerFault_fault (s : State) : (answerFault s).fault = s.fault := rfl
@[simp] theorem answerFault_fcause (s : State) : (answerFault s).fcause = s.fcause := rfl
@[simp] theorem answerFault_inputs (s : State) : (answerFault s).inputs = s.inputs := rfl
@[simp] theorem answerFault_responses (s : State) : (answerFault s).responses = faultWord s.fcause :: s.responses := rfl

/-! ### Reset -/

@[simp] theorem resetEvent_desc (P : Params) (s : State) : (resetEvent P s).desc = (State.resetFor P).desc := rfl
@[simp] theorem resetEvent_param (P : Params) (s : State) : (resetEvent P s).param = (State.resetFor P).param := rfl
@[simp] theorem resetEvent_buf (P : Params) (s : State) : (resetEvent P s).buf = (State.resetFor P).buf := rfl
@[simp] theorem resetEvent_lfsr (P : Params) (s : State) : (resetEvent P s).lfsr = (State.resetFor P).lfsr := rfl
@[simp] theorem resetEvent_res (P : Params) (s : State) : (resetEvent P s).res = (State.resetFor P).res := rfl
@[simp] theorem resetEvent_gsel (P : Params) (s : State) : (resetEvent P s).gsel = (State.resetFor P).gsel := rfl
@[simp] theorem resetEvent_glen (P : Params) (s : State) : (resetEvent P s).glen = (State.resetFor P).glen := rfl
@[simp] theorem resetEvent_status (P : Params) (s : State) : (resetEvent P s).status = (State.resetFor P).status := rfl
@[simp] theorem resetEvent_errinfo0 (P : Params) (s : State) : (resetEvent P s).errinfo0 = (State.resetFor P).errinfo0 := rfl
@[simp] theorem resetEvent_errinfo1 (P : Params) (s : State) : (resetEvent P s).errinfo1 = (State.resetFor P).errinfo1 := rfl
@[simp] theorem resetEvent_fault (P : Params) (s : State) : (resetEvent P s).fault = (State.resetFor P).fault := rfl
@[simp] theorem resetEvent_fcause (P : Params) (s : State) : (resetEvent P s).fcause = (State.resetFor P).fcause := rfl
@[simp] theorem resetEvent_inputs (P : Params) (s : State) : (resetEvent P s).inputs = s.inputs := rfl
@[simp] theorem resetEvent_responses (P : Params) (s : State) : (resetEvent P s).responses = s.responses := rfl

/-! ### A register is written: the fields that no register is in -/

@[simp] theorem writeReg_buf (v : Len) (x : Reg) (s : State) : (s.writeReg v x).buf = s.buf := by
  cases x <;> rfl
@[simp] theorem writeReg_lfsr (v : Len) (x : Reg) (s : State) : (s.writeReg v x).lfsr = s.lfsr := by
  cases x <;> rfl
@[simp] theorem writeReg_res (v : Len) (x : Reg) (s : State) : (s.writeReg v x).res = s.res := by
  cases x <;> rfl
@[simp] theorem writeReg_gsel (v : Len) (x : Reg) (s : State) : (s.writeReg v x).gsel = s.gsel := by
  cases x <;> rfl
@[simp] theorem writeReg_glen (v : Len) (x : Reg) (s : State) : (s.writeReg v x).glen = s.glen := by
  cases x <;> rfl
@[simp] theorem writeReg_status (v : Len) (x : Reg) (s : State) : (s.writeReg v x).status = s.status := by
  cases x <;> rfl
@[simp] theorem writeReg_errinfo0 (v : Len) (x : Reg) (s : State) : (s.writeReg v x).errinfo0 = s.errinfo0 := by
  cases x <;> rfl
@[simp] theorem writeReg_errinfo1 (v : Len) (x : Reg) (s : State) : (s.writeReg v x).errinfo1 = s.errinfo1 := by
  cases x <;> rfl
@[simp] theorem writeReg_fault (v : Len) (x : Reg) (s : State) : (s.writeReg v x).fault = s.fault := by
  cases x <;> rfl
@[simp] theorem writeReg_fcause (v : Len) (x : Reg) (s : State) : (s.writeReg v x).fcause = s.fcause := by
  cases x <;> rfl
@[simp] theorem writeReg_inputs (v : Len) (x : Reg) (s : State) : (s.writeReg v x).inputs = s.inputs := by
  cases x <;> rfl
@[simp] theorem writeReg_responses (v : Len) (x : Reg) (s : State) : (s.writeReg v x).responses = s.responses := by
  cases x <;> rfl

/-- The number of `BLKDATA` registers never changes. -/
@[simp] theorem writeReg_blkdata_length (v : Len) (x : Reg) (s : State) :
    (s.writeReg v x).desc.blkdata.length = s.desc.blkdata.length := by
  cases x <;> simp [State.writeReg]

end Sys2Proof.Machine
end

