-- ==== Sys2Proof/Laws/Ops.lean ====
section
/-! SUPPORT. What each shared operation can do, once: later proofs cite these and do not unfold the operation. -/

namespace Sys2Proof.Machine

open Sys2Proof.Config

/-! ### The buffer -/

/-- A byte is read exactly at the indices below the length (R24). -/
theorem read_isSome_iff (m : Memory) (a : Nat) : (m.read a).isSome ↔ a < m.length := by
  simp [Memory.read]

/-- A read in range is the load. -/
theorem read_eq_load {m : Memory} {a : Nat} (h : a < m.length) : m.read a = some (m.load a) := by
  simp [Memory.read, Memory.load, h]

@[simp] theorem store_length (m : Memory) (a : Nat) (v : Byte) : (m.store a v).length = m.length := by
  simp [Memory.store]

/-- The byte stored is the byte read. -/
theorem read_store_same {m : Memory} {a : Nat} (h : a < m.length) (v : Byte) : (m.store a v).read a = some v := by
  simp [Memory.read, Memory.store, h]

/-- A store changes no other byte. -/
theorem read_store_other (m : Memory) {a b : Nat} (h : a ≠ b) (v : Byte) : (m.store a v).read b = m.read b := by
  simp [Memory.read, Memory.store, List.getElem?_set_ne h]

@[simp] theorem push_length (m : Memory) (v : Byte) : (m.push v).length = m.length + 1 := by
  simp [Memory.push]

theorem read_push_same (m : Memory) (v : Byte) : (m.push v).read m.length = some v := by
  simp [Memory.read, Memory.push]

theorem read_push_old {m : Memory} {a : Nat} (h : a < m.length) (v : Byte) : (m.push v).read a = m.read a := by
  simp [Memory.read, Memory.push, List.getElem?_append_left h]

theorem growTo_length {m : Memory} {c : Nat} (h : m.length ≤ c) : (m.growTo c).length = c := by
  simp [Memory.growTo]; omega

theorem read_growTo_old {m : Memory} {a : Nat} (h : a < m.length) (c : Nat) : (m.growTo c).read a = m.read a := by
  simp [Memory.read, Memory.growTo, List.getElem?_append_left h]

theorem read_growTo_new {m : Memory} {a c : Nat} (h : m.length ≤ a) (hc : a < c) : (m.growTo c).read a = some 0 := by
  simp only [Memory.read, Memory.growTo]
  rw [List.getElem?_append_right h, List.getElem?_replicate_of_lt (by omega)]

/-- Every operation on the buffer keeps it in the RAM: the store. -/
theorem store_wf {P : Params} {m : Memory} (h : Memory.wf P m = true) (a : Nat) (v : Byte) :
    Memory.wf P (m.store a v) = true := by
  simpa [Memory.wf] using h

/-- The append of `BUFPUSH`, which faults on a full buffer. -/
theorem push_wf {P : Params} {m : Memory} (h : Memory.wf P m = true) (hne : m.length ≠ P.bufMax) (v : Byte) :
    Memory.wf P (m.push v) = true := by
  simp [Memory.wf] at *; omega

/-- The grow of `ENCODE`, which faults beyond `BUF_MAX`. -/
theorem growTo_wf {P : Params} {m : Memory} (h : Memory.wf P m = true) {c : Nat} (hc : c ≤ P.bufMax) :
    Memory.wf P (m.growTo c) = true := by
  simp [Memory.wf, Memory.growTo] at *; omega

/-- The empty buffer of `BUFCLR` and of reset. -/
theorem empty_wf (P : Params) : Memory.wf P [] = true := by simp [Memory.wf]

/-- The cells of a buffer stand in strictly rising order of address: one canonical form. -/
theorem cells_rising (m : Memory) : (m.cells.map Prod.fst).Pairwise (· < ·) := by
  have h : m.cells.map Prod.fst = List.range m.length := by
    apply List.ext_getElem? ; intro i
    by_cases hi : i < m.length <;> simp [Memory.cells, hi]
  rw [h]; exact List.pairwise_lt_range

/-- Equal cells are equal buffers. -/
theorem cells_injective {m m' : Memory} (h : m.cells = m'.cells) : m = m' := by
  have key : ∀ l : Memory, l.cells.map Prod.snd = l := by
    intro l; apply List.ext_getElem?; intro i; simp [Memory.cells]
  rw [← key m, ← key m', h]

/-! ### How a command ends -/

@[simp] theorem unlessFaulted_of_fault {s : State} (h : s.fault = true) (after : State) :
    unlessFaulted s after = answerFault s := by
  simp [unlessFaulted, h]

@[simp] theorem unlessFaulted_of_clear {s : State} (h : s.fault = false) (after : State) :
    unlessFaulted s after = after := by
  simp [unlessFaulted, h]

/-- A property of both ways is a property of the guarded command. -/
theorem unlessFaulted_rec {p : State → Prop} {s after : State} (hf : s.fault = true → p (answerFault s))
    (hc : s.fault = false → p after) : p (unlessFaulted s after) := by
  cases h : s.fault
  · simpa [h] using hc h
  · simpa [h] using hf h

@[simp] theorem finishWork_ok (w : Work) (s : State) :
    finishWork (.ok w) s = respondOk (lenOf w.buf.length) ({ s with buf := w.buf, lfsr := w.lfsr }.recordSuccess) := rfl

@[simp] theorem finishWork_err (e : DocError) (s : State) : finishWork (.err e) s = raiseError e s := rfl

@[simp] theorem finishWork_fault (c : FaultCause) (s : State) : finishWork (.fault c) s = takeFault c s := rfl

/-! ### The catalog -/

/-- The lookup succeeds exactly on the 16 lengths (R140). -/
theorem findGenerator_eq_none_iff (n : Nat) : findGenerator n = none ↔ n ∉ genLen := by
  simp [findGenerator, List.findIdx?_eq_none_iff]
  constructor
  · intro h hn; exact h n hn rfl
  · intro h x hx hxn; exact h (hxn ▸ hx)

/-- The lookup answers an entry of exactly that length (R140). -/
theorem findGenerator_some {n j : Nat} (h : findGenerator n = some j) : j < 16 ∧ genLen.getD j 0 = n := by
  rw [findGenerator, List.findIdx?_eq_some_iff_getElem] at h
  obtain ⟨hj, hn, -⟩ := h
  refine ⟨hj, ?_⟩
  simpa [List.getD_eq_getElem?_getD, hj] using hn

/-! ### The block computation -/

@[simp] theorem lfsrStep_length {F : FieldTables} {g R : List Byte} (h : R.length = g.length) (d : Byte) :
    (lfsrStep F g R d).length = g.length := by
  cases g with
  | nil => rfl
  | cons g0 gs => simp [lfsrStep, h]

theorem absorb_length {F : FieldTables} {g : List Byte} (ds : List Byte) :
    ∀ {R : List Byte}, R.length = g.length → (absorb F g R ds).length = g.length := by
  induction ds with
  | nil => intro R h; simpa [absorb] using h
  | cons d ds ih =>
    intro R h
    have := ih (lfsrStep_length (F := F) h d)
    simpa [absorb] using this

@[simp] theorem remainder_length (F : FieldTables) (g ds : List Byte) : (remainder F g ds).length = g.length :=
  absorb_length ds (by simp)

theorem foldl_store_length (is : List Nat) (f : Nat → Nat) (v : Nat → Byte) :
    ∀ m : Memory, (is.foldl (fun m i => m.store (f i) (v i)) m).length = m.length := by
  induction is with
  | nil => intro m; rfl
  | cons i is ih => intro m; simp [ih]

@[simp] theorem writeBack_length (m : Memory) (R : List Byte) (o st : Nat) :
    (writeBack m R o st).length = m.length := by
  simp [writeBack, foldl_store_length]

@[simp] theorem computeBlock_length (P : Params) (m : Memory) (co cl eo n st : Nat) :
    (computeBlock P m co cl eo n st).length = m.length := by
  simp [computeBlock]

/-- A run of stores leaves every other byte alone. -/
theorem read_foldl_store_other (is : List Nat) (f : Nat → Nat) (v : Nat → Byte) {a : Nat} (h : ∀ i ∈ is, f i ≠ a) :
    ∀ m : Memory, (is.foldl (fun m i => m.store (f i) (v i)) m).read a = m.read a := by
  induction is with
  | nil => intro m; rfl
  | cons i is ih =>
    intro m
    have hi : f i ≠ a := h i (by simp)
    rw [List.foldl_cons, ih (fun j hj => h j (by simp [hj])), read_store_other _ hi]

/-- The write-back leaves every byte that is no ECC position alone (R162). -/
theorem read_writeBack_other (m : Memory) (R : List Byte) (o st : Nat) {a : Nat}
    (h : ∀ i < R.length, o + i * st ≠ a) : (writeBack m R o st).read a = m.read a := by
  apply read_foldl_store_other
  intro i hi
  exact h i (by simpa using hi)

/-- A run of stores at different places: each place holds its value. -/
theorem read_foldl_store_same (f : Nat → Nat) (v : Nat → Byte) {i : Nat} :
    ∀ (is : List Nat) (m : Memory), is.Nodup → (∀ j ∈ is, ∀ k ∈ is, f j = f k → j = k) → i ∈ is → f i < m.length →
      (is.foldl (fun m i => m.store (f i) (v i)) m).read (f i) = some (v i) := by
  intro is
  induction is with
  | nil => intro m _ _ h; simp at h
  | cons j is ih =>
    intro m hnd hinj hi hlt
    rw [List.foldl_cons]
    rcases List.mem_cons.mp hi with rfl | hi'
    · rw [read_foldl_store_other, read_store_same hlt]
      intro k hk hfk
      have : k = i := hinj k (by simp [hk]) i (by simp) hfk
      subst this
      exact (List.nodup_cons.mp hnd).1 hk
    · exact ih _ (List.nodup_cons.mp hnd).2 (fun a ha b hb => hinj a (by simp [ha]) b (by simp [hb])) hi'
        (by simpa using hlt)

/-- ECC position `i` receives `R[n-1-i]` (R166). -/
theorem read_writeBack_same {m : Memory} {R : List Byte} {o st i : Nat} (hst : 0 < st) (hi : i < R.length)
    (hlt : o + i * st < m.length) : (writeBack m R o st).read (o + i * st) = some (R.getD (R.length - 1 - i) 0) := by
  have := read_foldl_store_same (fun i => stridedIndex o st i) (fun i => R.getD (R.length - 1 - i) 0)
    (i := i) (List.range R.length) m List.nodup_range
    (by
      intro j _ k _ h
      simp only [stridedIndex] at h
      exact Nat.eq_of_mul_eq_mul_right hst (by omega))
    (by simpa using hi) hlt
  simpa [writeBack, stridedIndex] using this

end Sys2Proof.Machine
end

