-- ==== Sys2Proof/Laws/Commands.lean ====
section
/-! SUPPORT. What each command can do, once (one inversion lemma per computation with checks), and `exec` as the
generic command at the default parameters, arm by arm. -/

namespace Sys2Proof.Machine

open Sys2Proof.Config

/-! ### The arms -/

theorem exec_gfmul (a b : Byte) (s : State) : exec (.gfmul a b) s = .next (gfmulCommand Rom.defaults a b s) := rfl
theorem exec_genfind (n : Len) (s : State) : exec (.genfind n) s = .next (genfindCommand n s) := rfl
theorem exec_genrd (k : Len) (s : State) : exec (.genrd k) s = .next (genrdCommand Rom.defaults k s) := rfl
theorem exec_eccblk (s : State) : exec .eccblk s = .next (eccblkCommand Rom.defaults s) := rfl
theorem exec_encode (s : State) : exec .encode s = .next (encodeCommand Rom.defaults s) := rfl
theorem exec_wrreg (r : RegNum) (v : Len) (s : State) :
    exec (.wrreg r v) s = .next (wrregCommand Rom.defaults r v s) := rfl
theorem exec_rdreg (r : RegNum) (s : State) : exec (.rdreg r) s = .next (rdregCommand Rom.defaults r s) := rfl
theorem exec_bufclr (s : State) : exec .bufclr s = .next (bufclrCommand s) := rfl
theorem exec_bufpush (v8 : Byte) (s : State) : exec (.bufpush v8) s = .next (bufpushCommand Rom.defaults v8 s) := rfl
theorem exec_bufrd (i : Len) (s : State) : exec (.bufrd i) s = .next (bufrdCommand i s) := rfl

/-! ### The register bank -/

/-- A register other than the `BLKDATA` ones is found by its own number. -/
theorem regOf_of_map {P : Params} {r : RegNum} {x : Reg} (h : regMap.lookup r = some x) : regOf P r = some x := by
  simp [regOf, h]

/-- `BLKDATA[m]` has the number `0x20 + (m - 1)` (R28). -/
theorem regOf_blkdata {P : Params} {m : Nat} (h1 : 1 ≤ m) (hm : m ≤ P.nblkMax) (hP : P.nblkMax ≤ 224) :
    regOf P (BitVec.ofNat 8 (0x20 + (m - 1))) = some (.blkdata m) := by
  have hn : (BitVec.ofNat 8 (0x20 + (m - 1))).toNat = 0x20 + (m - 1) := by
    rw [BitVec.toNat_ofNat]; omega
  have hl : regMap.lookup (BitVec.ofNat 8 (0x20 + (m - 1))) = none := by
    have key : ∀ r : RegNum, 0x20 ≤ r.toNat → regMap.lookup r = none := by decide +kernel
    exact key _ (by omega)
  simp only [regOf, hl, hn]
  rw [if_pos ⟨by omega, by omega⟩]
  congr 2
  omega

/-! ### ECCBLK -/

/-- The last positions in range put every position in range: "testing the last position of each run tests them
all" (R165). -/
theorem position_lt {base st len bound t : Nat} (hlast : base + (len - 1) * st < bound) (ht : t < len) :
    base + t * st < bound := by
  have : t * st ≤ (len - 1) * st := Nat.mul_le_mul_right st (by omega)
  omega

/-- The last position of a run is at or beyond the end. -/
theorem runsPast_iff (base st len bound : Nat) : runsPast base st len bound = true ↔ bound ≤ base + (len - 1) * st := by
  unfold runsPast stridedIndex
  exact decide_eq_true_iff

/-- What the checks and the computation of `ECCBLK` can end in (R165). -/
theorem blockEcc_cases (P : Params) (p : BlockParams) (w : Work) :
    (p.eccLen.toNat ∉ genLen ∧ blockEcc P p w = .err (.unsupportedRedundancyLength p.eccLen)) ∨
      blockEcc P p w = .fault .operandRange ∨
      blockEcc P p w = .fault .indexRange ∨
      (p.Accepted w.buf.length ∧
        blockEcc P p w =
          .ok (runBlock P p.codeOff.toNat p.codeLen.toNat p.eccOff.toNat p.eccLen.toNat p.stride.toNat w)) := by
  unfold blockEcc
  split
  · next h => exact .inl ⟨(findGenerator_eq_none_iff _).1 h, rfl⟩
  · next h1 =>
    split
    · exact .inr (.inl rfl)
    · next h2 =>
      split
      · exact .inr (.inr (.inl rfl))
      · next h3 =>
        split
        · exact .inr (.inr (.inl rfl))
        · next h4 =>
          refine .inr (.inr (.inr ⟨⟨?_, ?_, ?_, ?_⟩, rfl⟩))
          · exact not_not.1 (mt (findGenerator_eq_none_iff _).2 h1)
          · rcases Nat.eq_zero_or_pos p.stride.toNat with h | h
            · exact absurd (BitVec.eq_of_toNat_eq (by simpa using h)) h2
            · exact h
          · intro hpos
            by_contra hlt
            exact h3 ⟨hpos, (runsPast_iff _ _ _ _).2 (Nat.not_lt.1 hlt)⟩
          · by_contra hlt
            exact h4 ((runsPast_iff _ _ _ _).2 (Nat.not_lt.1 hlt))

/-- When the checks pass the computation runs (R164). -/
theorem blockEcc_accepted {P : Params} {p : BlockParams} {w : Work} (h : p.Accepted w.buf.length) :
    blockEcc P p w =
      .ok (runBlock P p.codeOff.toNat p.codeLen.toNat p.eccOff.toNat p.eccLen.toNat p.stride.toNat w) := by
  obtain ⟨hl, hs, hd, he⟩ := h
  have h1 : findGenerator p.eccLen.toNat ≠ none := mt (findGenerator_eq_none_iff _).1 (not_not.2 hl)
  have h2 : p.stride ≠ 0 := by rintro h; simp [h] at hs
  have h3 : ¬(0 < p.codeLen.toNat ∧
      runsPast p.codeOff.toNat p.stride.toNat p.codeLen.toNat w.buf.length = true) := by
    rintro ⟨hp, hr⟩
    have := hd hp
    have := (runsPast_iff _ _ _ _).1 hr
    omega
  have h4 : ¬runsPast p.eccOff.toNat p.stride.toNat p.eccLen.toNat w.buf.length = true := by
    intro hr
    have := (runsPast_iff _ _ _ _).1 hr
    omega
  simp only [blockEcc, if_neg h1, if_neg h2, if_neg h3, if_neg h4]

/-! ### ENCODE -/

/-- `N = 1` as a length and as a number. -/
theorem nblk_eq_one_iff (d : Desc) : d.nblk = 1 ↔ d.nblk.toNat = 1 := by
  constructor
  · intro h; simp [h]
  · intro h; exact BitVec.eq_of_toNat_eq (by simpa using h)

/-- Check 7 of R182 for one block. -/
theorem blockRunsPast_iff (d : Desc) (b : Nat) : d.blockRunsPast b = true ↔
    (0 < d.blockData (b + 1) ∧ d.cwcnt.toNat ≤ b + (d.blockData (b + 1) - 1) * d.nblk.toNat) ∨
      d.cwcnt.toNat ≤ d.dcap.toNat + b + (d.blkerr.toNat - 1) * d.nblk.toNat := by
  simp [Desc.blockRunsPast, runsPast_iff]

/-- What the checks and the computation of `ENCODE` can end in (R182). -/
theorem symbolEcc_cases (P : Params) (d : Desc) (w : Work) :
    (w.buf.length ≠ d.dcap.toNat ∧
        symbolEcc P d w = .err (.codewordCountMismatch d.dcap (lenOf w.buf.length))) ∨
      (d.eccLength.toNat ∉ genLen ∧ symbolEcc P d w = .err (.unsupportedRedundancyLength d.eccLength)) ∨
      symbolEcc P d w = .fault .operandRange ∨
      symbolEcc P d w = .fault .bufferCapacity ∨
      symbolEcc P d w = .fault .indexRange ∨
      (w.buf.length = d.dcap.toNat ∧ d.Accepted P ∧ symbolEcc P d w = .ok (d.runSteps P (d.grow w))) := by
  unfold symbolEcc
  split
  · next h => exact .inl ⟨h, rfl⟩
  · next h1 =>
    split
    · exact .inr (.inr (.inl rfl))
    · next h2 =>
      split
      · next h => exact .inr (.inl ⟨(findGenerator_eq_none_iff _).1 h, rfl⟩)
      · next h3 =>
        split
        · exact .inr (.inr (.inl rfl))
        · next h4 =>
          split
          · exact .inr (.inr (.inr (.inl rfl)))
          · next h5 =>
            split
            · exact .inr (.inr (.inr (.inr (.inl rfl))))
            · next h6 =>
              split
              · exact .inr (.inr (.inr (.inr (.inl rfl))))
              · next h7 =>
                refine .inr (.inr (.inr (.inr (.inr ⟨by omega, ⟨⟨by omega, by omega⟩, ?_, by omega, by omega, ?_, ?_⟩,
                  rfl⟩))))
                · exact not_not.1 (mt (findGenerator_eq_none_iff _).2 h3)
                · intro hN
                  by_contra hlt
                  exact h6 ⟨(nblk_eq_one_iff d).2 hN, by omega⟩
                · intro hN b hb
                  have hne : d.nblk ≠ 1 := by rw [ne_eq, nblk_eq_one_iff]; omega
                  have h8 : ¬d.blockRunsPast b = true := by
                    intro hr
                    exact h7 ⟨hne, List.any_eq_true.2 ⟨b, List.mem_range.2 hb, hr⟩⟩
                  rw [blockRunsPast_iff] at h8
                  exact ⟨fun hp => Nat.not_le.1 fun hle => h8 (.inl ⟨hp, hle⟩), Nat.not_le.1 fun hle => h8 (.inr hle)⟩

/-- When the checks pass the three steps run (R181). -/
theorem symbolEcc_accepted {P : Params} {d : Desc} {w : Work} (hlen : w.buf.length = d.dcap.toNat)
    (h : d.Accepted P) : symbolEcc P d w = .ok (d.runSteps P (d.grow w)) := by
  obtain ⟨⟨hc0, hc1⟩, hl, ho, hb, hs, hi⟩ := h
  have h3 : findGenerator d.eccLength.toNat ≠ none := mt (findGenerator_eq_none_iff _).1 (not_not.2 hl)
  have h6 : ¬(d.nblk = 1 ∧ d.cwcnt.toNat < d.dcap.toNat + d.errcw.toNat) := by
    rintro ⟨hN, hlt⟩
    have := hs ((nblk_eq_one_iff d).1 hN)
    omega
  have h7 : ¬(d.nblk ≠ 1 ∧ (List.range d.nblk.toNat).any d.blockRunsPast = true) := by
    rintro ⟨hN, hany⟩
    rw [ne_eq, nblk_eq_one_iff] at hN
    obtain ⟨b, hb', hr⟩ := List.any_eq_true.1 hany
    have := hi (by omega) b (List.mem_range.1 hb')
    rcases (blockRunsPast_iff d b).1 hr with ⟨hp, hle⟩ | hle
    · have := this.1 hp; omega
    · have := this.2; omega
  simp only [symbolEcc, if_neg (not_not.2 hlen), if_neg (show ¬(d.nblk.toNat = 0 ∨ P.nblkMax < d.nblk.toNat) by omega),
    if_neg h3, if_neg (Nat.not_lt.2 ho), if_neg (Nat.not_lt.2 hb), if_neg h6, if_neg h7]

@[simp] theorem runBlock_buf_length (P : Params) (co cl eo n st : Nat) (w : Work) :
    (runBlock P co cl eo n st w).buf.length = w.buf.length := by
  simp [runBlock]

theorem runBlocks_buf_length (P : Params) (d : Desc) (order : List Nat) :
    ∀ w : Work, (d.runBlocks P order w).buf.length = w.buf.length := by
  induction order with
  | nil => intro w; rfl
  | cons b bs ih =>
    intro w
    have := ih (d.runInterleaved P b w)
    simpa [Desc.runBlocks, Desc.runInterleaved] using this

@[simp] theorem runSteps_buf_length (P : Params) (d : Desc) (w : Work) :
    (d.runSteps P w).buf.length = w.buf.length := by
  unfold Desc.runSteps
  split
  · simp
  · exact runBlocks_buf_length P d _ w

/-- The length of `R` is kept (R26): with a legal catalog the coefficients of a length are as many as the length says,
and no length exceeds the depth. -/
theorem coefficients_length {P : Params} (hG : GenLegal P.gen) {n : Nat} (hn : n ∈ genLen) :
    (coefficients P n).length = n := by
  obtain ⟨j, hj⟩ : ∃ j, findGenerator n = some j :=
    Option.ne_none_iff_exists'.1 (mt (findGenerator_eq_none_iff n).1 (not_not.2 hn))
  obtain ⟨h16, hget⟩ := findGenerator_some hj
  have hlen : P.gen.length = 16 := by
    have := congrArg List.length hG
    simpa [genLen] using this
  have hj' : j < P.gen.length := by omega
  simp only [coefficients, hj, entry, List.getD_eq_getElem?_getD, List.getElem?_eq_getElem hj', Option.getD_some]
  rw [← hget, ← hG]
  simp [List.getD_eq_getElem?_getD, hj']

theorem runBlock_lfsr_length {P : Params} (hG : GenLegal P.gen) {n : Nat} (hn : n ∈ genLen) (co cl eo st : Nat)
    {w : Work} (hw : w.lfsr.length = lfsrDepth) : (runBlock P co cl eo n st w).lfsr.length = lfsrDepth := by
  have h68 : ∀ n ∈ genLen, n ≤ lfsrDepth := by decide
  have := h68 n hn
  simp [runBlock, coefficients_length hG hn, hw]
  omega

theorem runBlocks_lfsr_length {P : Params} (hG : GenLegal P.gen) {d : Desc} (hn : d.blkerr.toNat ∈ genLen)
    (order : List Nat) : ∀ {w : Work}, w.lfsr.length = lfsrDepth →
      (d.runBlocks P order w).lfsr.length = lfsrDepth := by
  induction order with
  | nil => intro w hw; simpa [Desc.runBlocks] using hw
  | cons b bs ih =>
    intro w hw
    have := ih (runBlock_lfsr_length hG hn b (d.blockData (b + 1)) (d.dcap.toNat + b) d.nblk.toNat hw)
    simpa [Desc.runBlocks, Desc.runInterleaved] using this

theorem runSteps_lfsr_length {P : Params} (hG : GenLegal P.gen) {d : Desc} (hn : d.eccLength.toNat ∈ genLen)
    {w : Work} (hw : w.lfsr.length = lfsrDepth) : (d.runSteps P w).lfsr.length = lfsrDepth := by
  unfold Desc.runSteps
  unfold Desc.eccLength at hn
  split
  · next h => exact runBlock_lfsr_length hG (by rwa [if_pos h] at hn) _ _ _ _ hw
  · next h => exact runBlocks_lfsr_length hG (by rwa [if_neg h] at hn) _ hw

end Sys2Proof.Machine
end

