-- ==== Sys2Proof/Laws/Rom.lean ====
section
/-! SUPPORT. The default choice of the open parameters is a legal one (spec/00_scope.md R8, spec/10_state.md R21,
R22). -/

namespace Sys2Proof.Machine

open Sys2Proof.Config

/-- The logs of the words of `ALOG` in address order are 0 to 254. -/
theorem defaultLog_of_alog : Rom.alog.map (fun a => (Rom.log.getD a.toNat 0).toNat) = List.range 255 := by
  decide +kernel

theorem defaultAlog_length : Rom.alog.length = 255 := by
  simpa using congrArg List.length defaultLog_of_alog

theorem defaultLog_length : Rom.log.length = 256 := by decide +kernel

theorem defaultAlog_once : allNonzeroOnce Rom.alog := by
  refine ⟨defaultAlog_length, List.Nodup.of_map _ (defaultLog_of_alog ▸ List.nodup_range), ?_⟩
  intro h
  have := List.mem_map_of_mem (f := fun a : Byte => (Rom.log.getD a.toNat 0).toNat) h
  rw [defaultLog_of_alog] at this
  revert this
  decide +kernel

/-- `LOG[ALOG[i]] = i` (R21). -/
theorem defaultLog_alog {i : Nat} (hi : i < 255) :
    (Rom.log.getD (Rom.alog.getD i 0).toNat 0).toNat = i := by
  have h := congrArg (fun l => l[i]?) defaultLog_of_alog
  have hlt : i < Rom.alog.length := by rw [defaultAlog_length]; exact hi
  simp only [List.getElem?_map, List.getElem?_eq_getElem hlt, Option.map_some, List.getElem?_range hi,
    Option.some.injEq] at h
  rw [List.getD_eq_getElem?_getD (l := Rom.alog), List.getElem?_eq_getElem hlt]
  exact h

/-- Every nonzero byte is a word of `ALOG` (R21). -/
theorem defaultAlog_mem {e : Byte} (he : e ≠ 0) : e ∈ Rom.alog := by
  obtain ⟨hlen, hnd, h0⟩ := defaultAlog_once
  have hnd' : ((0 :: Rom.alog).map BitVec.toNat).Nodup :=
    (List.nodup_cons.2 ⟨h0, hnd⟩).map fun _ _ h => BitVec.eq_of_toNat_eq h
  have hsub : (0 :: Rom.alog).map BitVec.toNat ⊆ List.range 256 := by
    intro n hn
    obtain ⟨b, -, rfl⟩ := List.mem_map.1 hn
    exact List.mem_range.2 b.isLt
  have hp := (List.subperm_of_subset hnd' hsub).perm_of_length_le (by simp [hlen])
  have hm : e.toNat ∈ (0 :: Rom.alog).map BitVec.toNat := hp.mem_iff.2 (List.mem_range.2 e.isLt)
  obtain ⟨b, hb, hbe⟩ := List.mem_map.1 hm
  obtain rfl := BitVec.eq_of_toNat_eq hbe
  exact (List.mem_cons.1 hb).resolve_left he

theorem defaultAlog_powers : Rom.alog = powers 0x12D 2 := by decide +kernel

theorem default_primitive : PrimitivePoly 0x12D :=
  ⟨by decide, defaultAlog_powers ▸ defaultAlog_once⟩

/-- The tables of R126 and R127 meet the constraint of R21. -/
theorem defaultField_legal : FieldLegal Rom.defaults.field where
  logLength := defaultLog_length
  sentinel := by decide +kernel
  alogOnce := defaultAlog_once
  logOfAlog := by
    intro i hi
    have h := defaultLog_alog hi
    change Rom.log[(Rom.alog.getD i 0).toNat]? = _
    have hlt : (Rom.alog.getD i 0).toNat < Rom.log.length := by rw [defaultLog_length]; exact BitVec.isLt _
    rw [List.getD_eq_getElem?_getD (l := Rom.log), List.getElem?_eq_getElem hlt] at h
    rw [List.getElem?_eq_getElem hlt]
    exact congrArg some (BitVec.eq_of_toNat_eq (by rw [BitVec.toNat_ofNat]; simp only [Option.getD_some] at h; omega))
  alogOfLog := by
    intro e he
    change Rom.alog[(Rom.log.getD e.toNat 0).toNat]? = some e
    obtain ⟨i, hi, rfl⟩ := List.getElem_of_mem (defaultAlog_mem he)
    have h := defaultLog_alog (defaultAlog_length ▸ hi)
    rw [List.getD_eq_getElem?_getD (l := Rom.alog), List.getElem?_eq_getElem hi] at h
    rw [show (Rom.log.getD (Rom.alog[i]).toNat 0).toNat = i from h]
    exact List.getElem?_eq_getElem hi
  powersOfAlpha := ⟨0x12D, 2, default_primitive, defaultAlog_powers⟩

/-- The catalog of R147 has entries of the 16 lengths. -/
theorem defaultGen_legal : GenLegal Rom.defaults.gen := by unfold GenLegal; decide +kernel

/-- The default parameters are legal. -/
theorem defaultParams_legal : ParamsLegal Rom.defaults where
  bufMax := by decide +kernel
  nblkMax := by decide +kernel
  field := defaultField_legal
  gen := defaultGen_legal

end Sys2Proof.Machine
end

