-- ==== Sys2Proof/Laws/Catalog.lean ====
section
/-! SUPPORT. The supplied catalog passes the checks of spec/42_generator_catalog.md R148 (contents PRESUMED,
notes/assumptions/4.md, 5.md). The kernel evaluates them through the tables packed into two numbers, which are proved
to be the tables. -/

namespace Sys2Proof.Machine

open Sys2Proof.Config

/-! ### The tables as numbers -/

/-- `LOG`, word `e` in bits `8 * e` up. -/
def packedLog : Nat :=
  0x96B17A5D146F82ED3C409CC947A8FAD646F93B9B138195791144100F1294453A83D0EE3315E8701A7BA05E659759B22FFBBFD7B64852A98F9DCDCABC3DAE41F6AA5590A44921531FD84BB70AFC23C0894292F77F3EA6AF6DCBACBD509E57CEE671C21B69168BE975EFFE34E08425D12AB3B93062980C5AC65FDA66DD7C4DA107B05C6EEC3FC8A7D5F89A8078430E9339CF32E7199F64582EBEB5518ECCBBADF554A3201E4A092288917EA56CAB4F56E5C1688A74FDDF2429B8610BC5D9DC4C065BEBC7D499770D383118632DB48DBAF4A21D08877D6B4EE46773DE2860C4DB05EAD37637172C8CF31C866AE37227C304D2362BF285E2260335F1E102F00100FF

/-- `ALOG`, word `i` in bits `8 * i` up. -/
def packedAlog : Nat :=
  0x964BB3CFF1EE77ADC06030180C060397DDF87C3E1F99DA6DA05028140A05944A258442218643B7CDF0783C1E0F91DE6FA1C663A7C5F47A3D884422119E4FB1CE67A5C462318E47B5CC66338FD1FE7FA9C261A653BFC9F279AA55BC5E2F81D66BA3C7F5EC763B8BD3FFE9E271AE57BDC86432199A4DB0582C160B93DFF9EA75AC562B83D7FDE8743A1D984C26139FD9FA7DA8542A159C4E2785D46A358C462387D5FC7E3F89D269A251BE5FB9CA65A452298241B65BBBCBF3EFE1E673AFC1F67BABC3F7EDE070381C0E0795DC6E378DD068341A0D90482412099249B259BA5DB85C2E179DD86C361B9BDBFBEBE3E7E5E472398A45B45A2D8040201008040201

/-- Word `i` of a packed table. -/
def byteAt (t i : Nat) : Nat := Nat.land (Nat.shiftRight t (Nat.mul 8 i)) 255

/-- A number times `α^k`. -/
def timesPower (k a : Nat) : Nat :=
  bif Nat.beq a 0 then 0 else byteAt packedAlog (Nat.mod (Nat.add (byteAt packedLog a) k) 255)

/-- Horner's rule at `α^k`, from the value `acc` on. -/
def hornerAt (k : Nat) : Nat → List Nat → Nat
  | acc, [] => acc
  | acc, c :: cs => hornerAt k (Nat.xor (timesPower k acc) c) cs

/-- The monic polynomial of the entry of length `n`, as numbers. -/
def monicNumbers (n : Nat) : List Nat := (monic (coefficients Rom.defaults n)).map BitVec.toNat

theorem packedLog_eq : Rom.log.map BitVec.toNat = (List.range 256).map (byteAt packedLog) := by decide +kernel

theorem packedAlog_eq : Rom.alog.map BitVec.toNat = (List.range 255).map (byteAt packedAlog) := by decide +kernel

/-- A read of a list is a read of its packed form. -/
theorem toNat_getD_of_packed {l : List Byte} {t n i : Nat} (h : l.map BitVec.toNat = (List.range n).map (byteAt t))
    (hi : i < n) : (l.getD i 0).toNat = byteAt t i := by
  have hlen : l.length = n := by simpa using congrArg List.length h
  have hl : i < l.length := by omega
  have hget := congrArg (fun l => l[i]?) h
  simp only [List.getElem?_map, List.getElem?_range hi, List.getElem?_eq_getElem hl, Option.map_some,
    Option.some.injEq] at hget
  rw [List.getD_eq_getElem?_getD, List.getElem?_eq_getElem hl]
  exact hget

theorem default_logOf (e : Byte) : logOf Rom.defaults.field e = byteAt packedLog e.toNat :=
  toNat_getD_of_packed packedLog_eq e.isLt

theorem default_alogOf {i : Nat} (hi : i < 255) : (alogOf Rom.defaults.field i).toNat = byteAt packedAlog i :=
  toNat_getD_of_packed packedAlog_eq hi

/-- No word of `ALOG` is 0. -/
theorem default_alogOf_ne_zero {i : Nat} (hi : i < 255) : alogOf Rom.defaults.field i ≠ 0 := by
  have hlt : i < Rom.alog.length := by rw [defaultAlog_length]; exact hi
  have h : alogOf Rom.defaults.field i = Rom.alog[i] := by
    change Rom.alog.getD i 0 = _
    rw [List.getD_eq_getElem?_getD, List.getElem?_eq_getElem hlt]; rfl
  rw [h]
  intro h0
  exact defaultAlog_once.2.2 (h0 ▸ List.getElem_mem hlt)

/-- A product with a power of `α` on the default tables, as numbers. -/
theorem toNat_gfmul_alogOf {k : Nat} (hk : k < 255) (a : Byte) :
    (gfmul Rom.defaults.field a (alogOf Rom.defaults.field k)).toNat = timesPower k a.toNat := by
  have hlog : logOf Rom.defaults.field (alogOf Rom.defaults.field k) = k := defaultLog_alog hk
  unfold gfmul timesPower
  by_cases ha : a = 0
  · simp [ha]
  · have hb : Nat.beq a.toNat 0 = false := by
      exact Bool.eq_false_iff.2 fun h => ha (BitVec.eq_of_toNat_eq (Nat.eq_of_beq_eq_true h))
    rw [if_neg (by simp only [ha, default_alogOf_ne_zero hk, or_self, not_false_eq_true]), hb, hlog, default_logOf,
      show groupOrder = 255 from rfl,
      default_alogOf (Nat.mod_lt _ (by decide))]
    rfl

/-- The value of a polynomial at a power of `α`, as numbers. -/
theorem toNat_evalPoly {k : Nat} (hk : k < 255) (cs : List Byte) :
    ∀ acc : Byte,
      (cs.foldl (fun acc c => gfmul Rom.defaults.field acc (alogOf Rom.defaults.field k) ^^^ c) acc).toNat =
        hornerAt k acc.toNat (cs.map BitVec.toNat) := by
  induction cs with
  | nil => intro acc; rfl
  | cons c cs ih =>
    intro acc
    rw [List.foldl_cons, ih, BitVec.toNat_xor, toNat_gfmul_alogOf hk]
    rfl

/-- The value of the monic polynomial of an entry at a power of `α`. -/
theorem toNat_evalPoly_monic (n : Nat) {k : Nat} (hk : k < 255) :
    (evalPoly Rom.defaults.field (monic (coefficients Rom.defaults n)) (alogOf Rom.defaults.field k)).toNat =
      hornerAt k 0 (monicNumbers n) :=
  toNat_evalPoly hk _ 0

/-! ### The checks -/

/-- Every entry vanishes at `α^1, ..., α^n`. -/
theorem catalog_roots_evaluated :
    (genLen.all fun n => (List.range n).all fun i => Nat.beq (hornerAt (i + 1) 0 (monicNumbers n)) 0) = true := by
  decide +kernel

/-- No entry vanishes at `α^0`. -/
theorem catalog_before_evaluated : (genLen.all fun n => hornerAt 0 0 (monicNumbers n) != 0) = true := by
  decide +kernel

/-- No entry vanishes at `α^(n+1)`. -/
theorem catalog_after_evaluated : (genLen.all fun n => hornerAt (n + 1) 0 (monicNumbers n) != 0) = true := by
  decide +kernel

/-- No catalog length is above 68. -/
theorem genLen_le {n : Nat} (hn : n ∈ genLen) : n ≤ 68 := by
  have h : ∀ n ∈ genLen, n ≤ 68 := by decide
  exact h n hn

/-- The default catalog passes every check of R148. -/
theorem defaultCatalog_checked : SuppliedCatalogChecked Rom.defaults where
  count := by decide +kernel
  lengths := by decide +kernel
  ascending := by decide
  theSixteen := rfl
  roots := by
    intro n hn i h1 h2
    have hle := genLen_le hn
    have h := List.all_eq_true.1 (List.all_eq_true.1 catalog_roots_evaluated n hn) (i - 1)
      (List.mem_range.2 (by omega))
    rw [Nat.sub_add_cancel h1] at h
    apply BitVec.eq_of_toNat_eq
    rw [toNat_evalPoly_monic n (by omega)]
    exact Nat.eq_of_beq_eq_true h
  noRootBefore := by
    intro n hn h0
    have h := List.all_eq_true.1 catalog_before_evaluated n hn
    rw [← toNat_evalPoly_monic n (by decide), h0] at h
    simp at h
  noRootAfter := by
    intro n hn h0
    have hle := genLen_le hn
    have h := List.all_eq_true.1 catalog_after_evaluated n hn
    rw [← toNat_evalPoly_monic n (by omega), h0] at h
    simp at h
  knownVector := by
    intro R
    have ha : (knownDesc Rom.defaults.nblkMax).Accepted Rom.defaults := by constructor <;> decide +kernel
    refine ⟨_, symbolEcc_accepted rfl ha, ?_⟩
    rw [Desc.runSteps, if_pos (show (knownDesc Rom.defaults.nblkMax).nblk = 1 from rfl)]
    simp only [runBlock, Desc.grow]
    decide +kernel

end Sys2Proof.Machine
end

