-- ==== Sys2Proof/Laws/Words.lean ====
section
/-! SUPPORT. The fields of the words: what a response word holds (spec/30_encoding.md R97) and what a packed command
word holds (R91). -/

namespace Sys2Proof.Machine

@[simp] theorem responseWord_tag (t : BitVec 2) (c : BitVec 6) (d : Len) :
    (responseWord t c d).extractLsb' 30 2 = t := by
  unfold responseWord
  ext i hi
  simp only [BitVec.getElem_extractLsb', BitVec.getLsbD_append]
  rw [if_neg (by omega), if_neg (by omega), if_neg (by omega), ← BitVec.getLsbD_eq_getElem hi]
  congr 1; omega

@[simp] theorem responseWord_code (t : BitVec 2) (c : BitVec 6) (d : Len) :
    (responseWord t c d).extractLsb' 24 6 = c := by
  unfold responseWord
  ext i hi
  simp only [BitVec.getElem_extractLsb', BitVec.getLsbD_append]
  rw [if_neg (by omega), if_neg (by omega), if_pos (by omega), ← BitVec.getLsbD_eq_getElem hi]
  congr 1; omega

@[simp] theorem responseWord_zero (t : BitVec 2) (c : BitVec 6) (d : Len) :
    (responseWord t c d).extractLsb' 16 8 = 0 := by
  unfold responseWord
  ext i hi
  simp only [BitVec.getElem_extractLsb', BitVec.getLsbD_append]
  rw [if_neg (by omega), if_pos (by omega)]
  simp

@[simp] theorem responseWord_data (t : BitVec 2) (c : BitVec 6) (d : Len) :
    (responseWord t c d).extractLsb' 0 16 = d := by
  unfold responseWord
  ext i hi
  simp only [BitVec.getElem_extractLsb', BitVec.getLsbD_append]
  rw [if_pos (by omega), ← BitVec.getLsbD_eq_getElem hi]
  congr 1; omega

@[simp] theorem opField_packImm (op hi : BitVec 8) (imm : BitVec 16) : opField (packImm op hi imm) = op := by
  unfold opField packImm
  ext i h
  simp only [BitVec.getElem_extractLsb', BitVec.getLsbD_append]
  rw [if_neg (by omega), if_neg (by omega), ← BitVec.getLsbD_eq_getElem h]
  congr 1; omega

@[simp] theorem hiField_packImm (op hi : BitVec 8) (imm : BitVec 16) : hiField (packImm op hi imm) = hi := by
  unfold hiField packImm
  ext i h
  simp only [BitVec.getElem_extractLsb', BitVec.getLsbD_append]
  rw [if_neg (by omega), if_pos (by omega), ← BitVec.getLsbD_eq_getElem h]
  congr 1; omega

@[simp] theorem immField_packImm (op hi : BitVec 8) (imm : BitVec 16) : immField (packImm op hi imm) = imm := by
  unfold immField packImm
  ext i h
  simp only [BitVec.getElem_extractLsb', BitVec.getLsbD_append]
  rw [if_pos (by omega), ← BitVec.getLsbD_eq_getElem h]
  congr 1; omega

@[simp] theorem opField_packWord (op hi mid lo : BitVec 8) : opField (packWord op hi mid lo) = op := by
  unfold opField packWord
  ext i h
  simp only [BitVec.getElem_extractLsb', BitVec.getLsbD_append]
  rw [if_neg (by omega), if_neg (by omega), if_neg (by omega), ← BitVec.getLsbD_eq_getElem h]
  congr 1; omega

@[simp] theorem hiField_packWord (op hi mid lo : BitVec 8) : hiField (packWord op hi mid lo) = hi := by
  unfold hiField packWord
  ext i h
  simp only [BitVec.getElem_extractLsb', BitVec.getLsbD_append]
  rw [if_neg (by omega), if_neg (by omega), if_pos (by omega), ← BitVec.getLsbD_eq_getElem h]
  congr 1; omega

@[simp] theorem midField_packWord (op hi mid lo : BitVec 8) : midField (packWord op hi mid lo) = mid := by
  unfold midField packWord
  ext i h
  simp only [BitVec.getElem_extractLsb', BitVec.getLsbD_append]
  rw [if_neg (by omega), if_pos (by omega), ← BitVec.getLsbD_eq_getElem h]
  congr 1; omega

@[simp] theorem loField_packWord (op hi mid lo : BitVec 8) : loField (packWord op hi mid lo) = lo := by
  unfold loField packWord
  ext i h
  simp only [BitVec.getElem_extractLsb', BitVec.getLsbD_append]
  rw [if_pos (by omega), ← BitVec.getLsbD_eq_getElem h]
  congr 1; omega

end Sys2Proof.Machine
end

