-- ==== Sys2Proof/Laws/Inversion.lean ====
section
/-! SUPPORT. What a command can do, said once: on a faulted instance it answers the fault; otherwise it ends in one of
the ways listed here, and each list entry carries the checks that led to it. -/

namespace Sys2Proof.Machine

open Sys2Proof.Config

/-- `exec` is the generic command at the default parameters. -/
theorem exec_eq_command (i : Instr) (s : State) : exec i s = .next (command Rom.defaults i s) := by
  cases i <;> rfl

/-- While `FAULT` is 1 every command answers it (R227). -/
theorem command_of_fault (P : Params) (i : Instr) {s : State} (h : s.fault = true) :
    command P i s = answerFault s := by
  cases i <;> simp [command, gfmulCommand, genfindCommand, genrdCommand, eccblkCommand, encodeCommand, wrregCommand,
    rdregCommand, bufclrCommand, bufpushCommand, bufrdCommand, h]

/-- What a command can do on an instance that has not faulted. -/
theorem command_cases (P : Params) (i : Instr) {s : State} (h : s.fault = false) :
    (∃ c, command P i s = takeFault c s ∧ c ≠ .illegalCommand) ∨
      (∃ a b, i = .gfmul a b ∧
        command P i s = respondOk (zext16 (gfmul P.field a b)) { s with res := gfmul P.field a b }) ∨
      (∃ n j, i = .genfind n ∧ findGenerator n.toNat = some j ∧
        command P i s = respondOk (lenOf j) ({ s with gsel := selectWord j, glen := n }.recordSuccess)) ∨
      (∃ n, i = .genfind n ∧ n.toNat ∉ genLen ∧
        command P i s = raiseError (.unsupportedRedundancyLength n) { s with gsel := 0, glen := 0 }) ∨
      (∃ k d, i = .genrd k ∧ command P i s = respondOk d s) ∨
      (∃ r x, i = .rdreg r ∧ regOf P r = some x ∧ command P i s = respondOk (s.readReg x) s) ∨
      (∃ k v, i = .bufrd k ∧ s.buf.read k.toNat = some v ∧ command P i s = respondOk (zext16 v) s) ∨
      (∃ r v x, i = .wrreg r v ∧ regOf P r = some x ∧ x.writable = true ∧
        command P i s = respondOk 0 (s.writeReg v x)) ∨
      (i = .bufclr ∧ command P i s = respondOk 0 { s with buf := [] }) ∨
      (∃ v, i = .bufpush v ∧ s.buf.length ≠ P.bufMax ∧
        command P i s = respondOk (lenOf (s.buf.length + 1)) { s with buf := s.buf.push v }) ∨
      (i = .eccblk ∧ s.param.eccLen.toNat ∉ genLen ∧
        command P i s = raiseError (.unsupportedRedundancyLength s.param.eccLen) s) ∨
      (i = .eccblk ∧ s.param.Accepted s.buf.length ∧
        command P i s =
          finishWork (.ok (runBlock P s.param.codeOff.toNat s.param.codeLen.toNat s.param.eccOff.toNat
            s.param.eccLen.toNat s.param.stride.toNat s.work)) s) ∨
      (i = .encode ∧ s.buf.length ≠ s.desc.dcap.toNat ∧
        command P i s = raiseError (.codewordCountMismatch s.desc.dcap s.buflen) s) ∨
      (i = .encode ∧ s.desc.eccLength.toNat ∉ genLen ∧
        command P i s = raiseError (.unsupportedRedundancyLength s.desc.eccLength) s) ∨
      (i = .encode ∧ s.buf.length = s.desc.dcap.toNat ∧ s.desc.Accepted P ∧
        command P i s = finishWork (.ok (s.desc.runSteps P (s.desc.grow s.work))) s) := by
  cases i <;> simp only [command, gfmulCommand, genfindCommand, genrdCommand, eccblkCommand, encodeCommand,
    wrregCommand, rdregCommand, bufclrCommand, bufpushCommand, bufrdCommand, h, unlessFaulted_of_clear]
  case gfmul a b => simp
  case genfind n =>
    cases hg : findGenerator n.toNat with
    | none => have := (findGenerator_eq_none_iff _).1 hg; simp [this]
    | some j => simp [hg]
  case genrd k =>
    split
    · exact .inl ⟨_, rfl, by simp⟩
    · simp
      exact .inr ⟨_, rfl⟩
  case eccblk =>
    rcases blockEcc_cases P s.param s.work with ⟨h1, e⟩ | e | e | ⟨h1, e⟩ <;> rw [e]
    · simp [h1]
    · exact .inl ⟨_, rfl, by simp⟩
    · exact .inl ⟨_, rfl, by simp⟩
    · have : s.param.Accepted s.buf.length := h1
      simp [this]
  case encode =>
    have hw : s.work.buf = s.buf := rfl
    rcases symbolEcc_cases P s.desc s.work with ⟨h1, e⟩ | ⟨h1, e⟩ | e | e | e | ⟨h1, h2, e⟩ <;> rw [e]
    · rw [hw] at h1
      simp [h1, hw, State.buflen]
    · simp [h1]
    · exact .inl ⟨_, rfl, by simp⟩
    · exact .inl ⟨_, rfl, by simp⟩
    · exact .inl ⟨_, rfl, by simp⟩
    · rw [hw] at h1
      simp [h1, h2]
  case wrreg r v =>
    split
    · next x hx =>
      split
      · next hw => simp [hx, hw]
      · exact .inl ⟨_, rfl, by simp⟩
    · exact .inl ⟨_, rfl, by simp⟩
  case rdreg r =>
    split
    · next x hx => simp [hx]
    · exact .inl ⟨_, rfl, by simp⟩
  case bufclr => simp
  case bufpush v =>
    split
    · exact .inl ⟨_, rfl, by simp⟩
    · next hx => simp [hx, State.buflen]
  case bufrd k =>
    split
    · next v hv => simp [hv]
    · exact .inl ⟨_, rfl, by simp⟩

/-! ### The endings as record updates -/

theorem takeFault_eq (c : FaultCause) (s : State) :
    takeFault c s = { s with fault := true, fcause := c.code, responses := faultWord c.code :: s.responses } := rfl

theorem respondOk_eq (d : Len) (s : State) : respondOk d s = { s with responses := okWord d :: s.responses } := rfl

theorem raiseError_eq (e : DocError) (s : State) :
    raiseError e s =
      { s with
        status := e.kind, errinfo0 := e.info0, errinfo1 := e.info1
        responses := errorWord e :: s.responses } := rfl

theorem answerFault_eq (s : State) :
    answerFault s = { s with responses := faultWord s.fcause :: s.responses } := rfl

theorem finishWork_ok_eq (w : Work) (s : State) :
    finishWork (.ok w) s =
      { s with
        buf := w.buf, lfsr := w.lfsr
        status := 0, errinfo0 := 0, errinfo1 := 0
        responses := okWord (lenOf w.buf.length) :: s.responses } := rfl

/-- A register write touches the descriptor and the parameter registers only. -/
theorem writeReg_eq (s : State) (v : Len) (x : Reg) :
    s.writeReg v x = { s with desc := (s.writeReg v x).desc, param := (s.writeReg v x).param } := by
  cases x <;> rfl

/-! ### The tags -/

@[simp] theorem okWord_tag (d : Len) : (okWord d).extractLsb' 30 2 = 0 := by simp [okWord]

@[simp] theorem errorWord_tag (e : DocError) : (errorWord e).extractLsb' 30 2 = 1 := by simp [errorWord]

@[simp] theorem faultWord_tag (c : BitVec 3) : (faultWord c).extractLsb' 30 2 = 2 := by simp [faultWord]

end Sys2Proof.Machine
end

