-- ==== Sys2Proof/Laws/PerInstr.lean ====
section
/-! SUPPORT. The statements made of every command as syntax, one lemma per constructor of `Instr`. -/

namespace Sys2Proof.Laws

/-- The word of a command matches the row of its own mnemonic (spec/30_encoding.md R93). -/
def EncodedWordMatchesRow.Statement (i : Instr) : Prop :=
  ∃ row ∈ rows, row.mnemonic = i.mnemonic ∧ row.covers (encode i) = true

/-- Masking keeps the fixed part of a word whose operand bits the mask clears. -/
theorem EncodedWordMatchesRow.imm (op hi : BitVec 8) (imm : BitVec 16) (mask : Word)
    (h : mask &&& (0#8 ++ 0#8 ++ 0xFFFF#16 : Word) = 0) :
    packImm op hi imm &&& mask = packImm op hi 0 &&& mask := by
  have key : packImm op hi imm = packImm op hi 0 ||| (0#8 ++ 0#8 ++ imm : Word) := by
    unfold packImm
    ext i hi'
    simp only [BitVec.getElem_or, BitVec.getElem_append]
    split <;> simp
  have low : (0#8 ++ 0#8 ++ imm : Word) &&& mask = 0 := by
    have hi : (0#8 ++ 0#8 ++ imm : Word) = (0#8 ++ 0#8 ++ imm : Word) &&& (0#8 ++ 0#8 ++ 0xFFFF#16 : Word) := by
      ext i hi'
      simp only [BitVec.getElem_and, BitVec.getElem_append]
      split
      · next hlt =>
        have : (0xFFFF#16)[i] = true := by
          have : ∀ i (h : i < 16), (0xFFFF#16)[i] = true := by decide
          exact this i hlt
        simp [this]
      · split <;> simp
    rw [hi, BitVec.and_assoc, BitVec.and_comm _ mask, h]
    simp
  rw [key]
  have : (packImm op hi 0 ||| (0#8 ++ 0#8 ++ imm : Word)) &&& mask =
      (packImm op hi 0 &&& mask) ||| ((0#8 ++ 0#8 ++ imm : Word) &&& mask) := by
    ext i hi'
    simp [Bool.and_or_distrib_right]
  rw [this, low]
  simp

theorem EncodedWordMatchesRow.packWord_eq (op hi mid lo : BitVec 8) :
    packWord op hi mid lo = packImm op hi (mid ++ lo) := by
  unfold packWord packImm
  rw [BitVec.append_assoc]
  rfl

theorem EncodedWordMatchesRow.gfmul (a b : Byte) : EncodedWordMatchesRow.Statement (.gfmul a b) := by
  refine ⟨⟨"GFMUL", .m, 0x01000000#32⟩, by simp [rows], rfl, ?_⟩
  rw [Row.covers, encode, packWord_eq, imm _ _ _ _ (by decide)]
  decide

theorem EncodedWordMatchesRow.genfind (n : Len) : EncodedWordMatchesRow.Statement (.genfind n) := by
  refine ⟨⟨"GENFIND", .i, 0x02000000#32⟩, by simp [rows], rfl, ?_⟩
  rw [Row.covers, encode, imm _ _ _ _ (by decide)]
  decide

theorem EncodedWordMatchesRow.genrd (k : Len) : EncodedWordMatchesRow.Statement (.genrd k) := by
  refine ⟨⟨"GENRD", .i, 0x03000000#32⟩, by simp [rows], rfl, ?_⟩
  rw [Row.covers, encode, imm _ _ _ _ (by decide)]
  decide

theorem EncodedWordMatchesRow.eccblk : EncodedWordMatchesRow.Statement .eccblk :=
  ⟨⟨"ECCBLK", .z, 0x04000000#32⟩, by simp [rows], rfl, by decide⟩

theorem EncodedWordMatchesRow.encode : EncodedWordMatchesRow.Statement .encode :=
  ⟨⟨"ENCODE", .z, 0x05000000#32⟩, by simp [rows], rfl, by decide⟩

theorem EncodedWordMatchesRow.wrreg (r : RegNum) (v : Len) : EncodedWordMatchesRow.Statement (.wrreg r v) := by
  refine ⟨⟨"WRREG", .w, 0x10000000#32⟩, by simp [rows], rfl, ?_⟩
  rw [Row.covers, Sys2Proof.encode, imm _ _ _ _ (by decide)]
  revert r
  decide

theorem EncodedWordMatchesRow.rdreg (r : RegNum) : EncodedWordMatchesRow.Statement (.rdreg r) := by
  refine ⟨⟨"RDREG", .q, 0x11000000#32⟩, by simp [rows], rfl, ?_⟩
  revert r
  decide

theorem EncodedWordMatchesRow.bufclr : EncodedWordMatchesRow.Statement .bufclr :=
  ⟨⟨"BUFCLR", .z, 0x12000000#32⟩, by simp [rows], rfl, by decide⟩

theorem EncodedWordMatchesRow.bufpush (v8 : Byte) : EncodedWordMatchesRow.Statement (.bufpush v8) := by
  refine ⟨⟨"BUFPUSH", .p, 0x13000000#32⟩, by simp [rows], rfl, ?_⟩
  revert v8
  decide

theorem EncodedWordMatchesRow.bufrd (i : Len) : EncodedWordMatchesRow.Statement (.bufrd i) := by
  refine ⟨⟨"BUFRD", .i, 0x14000000#32⟩, by simp [rows], rfl, ?_⟩
  rw [Row.covers, Sys2Proof.encode, imm _ _ _ _ (by decide)]
  decide

end Sys2Proof.Laws
end

