-- ==== Sys2Proof/Laws/Registers.lean ====
section
/-! SUPPORT. The register bank (spec/10_state.md R28, R31): one number per register, and a read after a write. -/

namespace Sys2Proof.Machine

open Sys2Proof.Config

/-- What a lookup finds is a row of the map. -/
theorem mem_regMap {r : RegNum} {x : Reg} (h : regMap.lookup r = some x) : (r, x) ∈ regMap := by
  obtain ⟨l₁, l₂, hl, -⟩ := List.lookup_eq_some_iff.1 h
  rw [hl]
  simp

/-- No register with a number of its own is a `BLKDATA` register. -/
theorem regMap_ne_blkdata (r : RegNum) (m : Nat) : regMap.lookup r ≠ some (.blkdata m) := by
  intro h
  have := mem_regMap h
  simp [regMap] at this

/-- The number of a `BLKDATA` register is `0x20 + (m - 1)`, `m` = 1 to `NBLK_MAX`. -/
theorem regOf_eq_blkdata {P : Params} {r : RegNum} {m : Nat} (h : regOf P r = some (.blkdata m)) :
    1 ≤ m ∧ m ≤ P.nblkMax ∧ r.toNat = 0x20 + (m - 1) := by
  unfold regOf at h
  cases e : regMap.lookup r with
  | some y =>
    rw [e] at h
    obtain rfl : y = .blkdata m := by simpa using h
    exact absurd e (regMap_ne_blkdata _ _)
  | none => rw [e] at h; simp at h; omega

/-- The registers have no aliases: one number per register (R31). -/
theorem regOf_injective {P : Params} {r r' : RegNum} {x : Reg} (h : regOf P r = some x) (h' : regOf P r' = some x) :
    r = r' := by
  have key : ∀ p ∈ regMap, ∀ q ∈ regMap, p.2 = q.2 → p.1 = q.1 := by decide
  unfold regOf at h h'
  cases e : regMap.lookup r with
  | some y =>
    rw [e] at h
    obtain rfl : y = x := by simpa using h
    cases e' : regMap.lookup r' with
    | some z =>
      rw [e'] at h'
      obtain rfl : z = y := by simpa using h'
      exact key _ (mem_regMap e) _ (mem_regMap e') rfl
    | none =>
      rw [e'] at h'; simp at h'
      obtain ⟨-, rfl⟩ := h'
      exact absurd e (regMap_ne_blkdata _ _)
  | none =>
    rw [e] at h; simp at h
    obtain ⟨h1, rfl⟩ := h
    cases e' : regMap.lookup r' with
    | some z =>
      rw [e'] at h'; simp at h'; subst h'
      exact absurd e' (regMap_ne_blkdata _ _)
    | none => rw [e'] at h'; simp at h'; apply BitVec.eq_of_toNat_eq; omega

/-- A write leaves every other register as it was. -/
theorem readReg_writeReg_other (s : State) (v : Len) {x y : Reg} (hxy : x ≠ y) (hx : ∀ m, x = .blkdata m → 1 ≤ m)
    (hy : ∀ m, y = .blkdata m → 1 ≤ m) : (s.writeReg v x).readReg y = s.readReg y := by
  cases x <;> cases y <;> simp [State.writeReg, State.readReg, State.buflen] at *
  rw [List.getElem?_set_ne (by omega)]

/-- A read of the register written gives the value written. -/
theorem readReg_writeReg_same {P : Params} {s : State} (hs : s.desc.blkdata.length = P.nblkMax) (v : Len) {r : RegNum}
    {x : Reg} (hr : regOf P r = some x) (hw : x.writable = true) : (s.writeReg v x).readReg x = v := by
  cases x <;> simp [Reg.writable] at hw <;> simp [State.writeReg, State.readReg]
  have := regOf_eq_blkdata hr
  rw [List.getElem?_set_self (by omega)]
  rfl

/-- The endings of a command change no register but the status registers. -/
@[simp] theorem readReg_respondOk (d : Len) (s : State) (x : Reg) : (respondOk d s).readReg x = s.readReg x := by
  cases x <;> rfl

@[simp] theorem readReg_takeFault (c : FaultCause) (s : State) (x : Reg) :
    (takeFault c s).readReg x = s.readReg x := by
  cases x <;> rfl

end Sys2Proof.Machine
end

