-- ==== Sys2Proof/Tests/Slice0.lean ====
section
/-! SUPPORT. Tests: expected values are the spec's own (spec/95_test_vectors.md, whose vector each comment names, and
spec/30_encoding.md R101), and a witness for the hypotheses of every statement that has some. -/

namespace Sys2Proof.Tests

set_option Elab.async false

open Sys2Proof.Config Sys2Proof.Machine Sys2Proof.Claims

/-! ### Helpers -/

/-- The state an outcome goes on with, `State.reset` where it does not. -/
def after (o : Host.Outcome State Fault Refusal) : State :=
  match o with
  | .next t => t
  | .fault _ => State.reset
  | .refused _ => State.reset

/-- The last response, or the word `0xFFFFFFFF`, which is no response (R97). -/
def answer (o : Host.Outcome State Fault Refusal) : Word := (after o).responses.headD 0xFFFFFFFF#32

/-- A descriptor from `DCAP`, `CWCNT`, `NBLK`, `ERRCW`, `BLKERR` and the first `BLKDATA` registers. -/
def descOf (dcap cwcnt nblk errcw blkerr : Len) (lens : List Len) : Desc :=
  { dcap := dcap, cwcnt := cwcnt, nblk := nblk, errcw := errcw, blkerr := blkerr
    blkdata := lens ++ List.replicate (10 - lens.length) 0 }

/-- A fresh instance with a buffer and a descriptor. -/
def withDesc (m : Memory) (d : Desc) : State := { State.reset with buf := m, desc := d }

/-- A fresh instance with a buffer and the operands of `ECCBLK`, in the order of 95_test_vectors.md V-ECCBLK. -/
def withParams (m : Memory) (codeOff codeLen eccOff eccLen stride : Len) : State :=
  { State.reset with
    buf := m
    param := { codeOff := codeOff, codeLen := codeLen, eccOff := eccOff, eccLen := eccLen, stride := stride } }

/-- A fresh instance on which `GENFIND 5` succeeded. -/
def selected : State := { State.reset with gsel := 0x8000, glen := 5 }

/-- An instance that met a fault of cause 4. -/
def broken : State := { State.reset with fault := true, fcause := 4 }

/-- A buffer of `n` bytes. -/
def filled (n : Nat) : State := { State.reset with buf := List.replicate n 0 }

/-- Vector N1. -/
def n1 : State := withDesc [142, 164, 186] (descOf 3 8 1 5 0 [])

/-- Vector N9. -/
def n9 : State := withDesc [10, 20, 30, 40, 50] (descOf 5 20 3 0 5 [2, 2, 1])

/-- Vector N28. -/
def n28 : State := withDesc [1, 2, 3] (descOf 3 13 2 0 5 [2, 3])

/-- Vector E3. -/
def e3 : State := withParams [1, 9, 2, 9, 3, 9, 0, 9, 0, 9, 0, 9, 0, 9, 0, 9] 0 3 6 5 2

/-- Vector E10. -/
def e10 : State := withParams [1, 2, 3, 0, 0, 0, 0, 0] 0 3 3 5 1

/-- Vector E12 with the data of E10. -/
def e12 : State := withParams [77, 88, 1, 2, 3, 0, 0, 0, 0, 0] 2 3 5 5 1

/-! ### Well-formedness: an ill-formed term for each check -/

theorem test_illFormed_words :
    WellFormed.word 0x01010000#32 = false ∧ WellFormed.word 0x02010005#32 = false ∧
      WellFormed.word 0x04000001#32 = false ∧ WellFormed.word 0x05800000#32 = false ∧
      WellFormed.word 0x11060001#32 = false ∧ WellFormed.word 0x13000100#32 = false ∧
      WellFormed.word 0x00000000#32 = false ∧ WellFormed.word 0x15000000#32 = false := by decide

theorem test_wellFormed_words :
    WellFormed.word 0x10FFFFFF#32 = true ∧ WellFormed.word 0x11FF0000#32 = true ∧
      WellFormed.word 0x1400FFFF#32 = true := by decide

theorem test_illFormed_numbers : WellFormed.byte 256 = false ∧ WellFormed.len 65536 = false := by decide

theorem test_illFormed_pseudo :
    Pseudo.wf 10 (.loadbuf [0, 256]) = false ∧ Pseudo.wf 10 (.setdesc 0 65536 0 0 0) = false ∧
      Pseudo.wf 10 (.setblk 0 1) = false ∧ Pseudo.wf 10 (.setblk 11 1) = false ∧
      Pseudo.wf 10 (.setblk 10 65536) = false ∧ Pseudo.wf 10 (.setparam 0 0 0 0 65536) = false ∧
      Pseudo.wf 10 (.dumpbuf 65537) = false := by decide

theorem test_wellFormed_pseudo :
    Pseudo.wf 10 (.loadbuf [255]) = true ∧ Pseudo.wf 10 (.setblk 10 65535) = true ∧
      Pseudo.wf 10 (.dumpbuf 65536) = true := by decide

/-! ### Decoding: the words of R91 and R101, written out field by field -/

theorem test_decode_gfmul :
    decode (0b00000001#8 ++ 0b00000000#8 ++ 0b10000000#8 ++ 0b00000010#8) = .ok (.gfmul 2 128) := by decide

theorem test_decode_genfind :
    decode (0b00000010#8 ++ 0b00000000#8 ++ 0b00000001#8 ++ 0b00000101#8) = .ok (.genfind 261) := by decide

theorem test_decode_genrd :
    decode (0b00000011#8 ++ 0b00000000#8 ++ 0b00000000#8 ++ 0b00000100#8) = .ok (.genrd 4) := by decide

theorem test_decode_eccblk :
    decode (0b00000100#8 ++ 0b00000000#8 ++ 0b00000000#8 ++ 0b00000000#8) = .ok .eccblk := by decide

theorem test_decode_encode :
    decode (0b00000101#8 ++ 0b00000000#8 ++ 0b00000000#8 ++ 0b00000000#8) = .ok .encode := by decide

theorem test_decode_wrreg :
    decode (0b00010000#8 ++ 0b00100001#8 ++ 0b00000000#8 ++ 0b10011011#8) = .ok (.wrreg 0x21 155) := by decide

theorem test_decode_rdreg :
    decode (0b00010001#8 ++ 0b00000110#8 ++ 0b00000000#8 ++ 0b00000000#8) = .ok (.rdreg 0x06) := by decide

theorem test_decode_bufclr :
    decode (0b00010010#8 ++ 0b00000000#8 ++ 0b00000000#8 ++ 0b00000000#8) = .ok .bufclr := by decide

theorem test_decode_bufpush :
    decode (0b00010011#8 ++ 0b00000000#8 ++ 0b00000000#8 ++ 0b10001110#8) = .ok (.bufpush 142) := by decide

theorem test_decode_bufrd :
    decode (0b00010100#8 ++ 0b00000000#8 ++ 0b11111111#8 ++ 0b11111110#8) = .ok (.bufrd 65534) := by decide

/-- Illegal words, by name (R94, R95; V-DECODE). -/
theorem test_decode_illegal :
    decode 0x00000000#32 = .error (.unassignedOpcode 0x00) ∧ decode 0x06000000#32 = .error (.unassignedOpcode 0x06) ∧
      decode 0xFFFFFFFF#32 = .error (.unassignedOpcode 0xFF) ∧ decode 0x01010000#32 = .error (.reservedBits 0x01) ∧
      decode 0x04000001#32 = .error (.reservedBits 0x04) ∧ decode 0x11060001#32 = .error (.reservedBits 0x11) ∧
      decode 0x12000100#32 = .error (.reservedBits 0x12) ∧ decode 0x13000100#32 = .error (.reservedBits 0x13) := by
  decide

/-- The words of the opcode table's rows, as numbers. -/
theorem test_decodeTableWord :
    decodeTableWord 32 0x01008002 = some (.gfmul 2 128) ∧ decodeTableWord 32 0x1021009B = some (.wrreg 0x21 155) ∧
      decodeTableWord 32 0x04000001 = none := by decide

/-- The listing line of R99 and R101. -/
theorem test_asm :
    (Instr.gfmul 2 128).asm = "GFMUL 2, 128" ∧ Instr.encode.asm = "ENCODE" ∧ (Instr.bufrd 7).asm = "BUFRD 7" := by
  decide +kernel

/-- R100: `SETBLK 2, 155` is `WRREG 0x21, 155`. -/
theorem test_expand_setblk : (Pseudo.setblk 2 155).expand.map encode = [0x1021009B#32] := by decide

/-! ### Commands, at most two each -/

/-- V-GFMUL: the sum 480 is reduced modulo 255, not 256. -/
theorem test_gfmul : answer (exec (.gfmul 3 3) State.reset) = 0x00000005#32 := by decide +kernel

/-- V-GFMUL: `RES` gets the product; the largest log sum. -/
theorem test_gfmul_res : (after (exec (.gfmul 150 150) State.reset)).res = 75 := by decide +kernel

/-- V-GENFIND, the last entry. -/
theorem test_genfind :
    answer (exec (.genfind 68) State.reset) = 0x0000000F#32 ∧ (after (exec (.genfind 68) State.reset)).gsel = 0x800F ∧
      (after (exec (.genfind 68) State.reset)).glen = 68 := by decide +kernel

/-- V-GENFIND: a failed lookup drops the selection. -/
theorem test_genfind_fails :
    answer (exec (.genfind 6) selected) = 0x42000006#32 ∧ (after (exec (.genfind 6) selected)).gsel = 0 ∧
      (after (exec (.genfind 6) selected)).errinfo0 = 6 := by decide +kernel

/-- V-GENRD. -/
theorem test_genrd :
    answer (exec (.genrd 0) selected) = 0x000000E4#32 ∧ answer (exec (.genrd 4) selected) = 0x0000003E#32 := by
  decide +kernel

/-- V-GENRD: `k` = `GLEN`, and nothing selected. -/
theorem test_genrd_faults :
    answer (exec (.genrd 5) selected) = 0x84000000#32 ∧ answer (exec (.genrd 0) State.reset) = 0x84000000#32 := by
  decide +kernel

/-- E3: stride 2. -/
theorem test_eccblk :
    (after (exec .eccblk e3)).buf = [1, 9, 2, 9, 3, 9, 53, 9, 46, 9, 95, 9, 0, 9, 75, 9] ∧
      answer (exec .eccblk e3) = 0x00000010#32 := by decide +kernel

/-- E14: all reads before all writes. -/
theorem test_eccblk_overlap :
    (after (exec .eccblk (withParams [1, 2, 3, 4, 5, 6, 7, 8] 0 8 3 5 1))).buf = [1, 2, 3, 56, 206, 245, 120, 160] := by
  decide +kernel

/-- N1, the document's own scenario. -/
theorem test_encode :
    (after (exec .encode n1)).buf = [142, 164, 186, 114, 25, 5, 88, 102] ∧
      answer (exec .encode n1) = 0x00000008#32 := by decide +kernel

/-- N28: blocks in increasing order. -/
theorem test_encode_blockOrder :
    (after (exec .encode n28)).buf = [1, 2, 3, 224, 211, 220, 219, 70, 10, 32, 79, 240, 143] := by decide +kernel

/-- V-HOST: the last `BLKDATA` register. -/
theorem test_wrreg :
    (after (exec (.wrreg 0x29 7) State.reset)).desc.blkdata = [0, 0, 0, 0, 0, 0, 0, 0, 0, 7] := by decide +kernel

/-- V-HOST: a read-only register, and the first number past the bank. -/
theorem test_wrreg_faults :
    answer (exec (.wrreg 0x03 1) State.reset) = 0x82000000#32 ∧
      answer (exec (.wrreg 0x2A 1) State.reset) = 0x82000000#32 := by decide +kernel

/-- R201: `BUFLEN` of an encoded buffer, and the selection. -/
theorem test_rdreg :
    answer (exec (.rdreg 0x06) e10) = 0x00000008#32 ∧ answer (exec (.rdreg 0x04) selected) = 0x00008000#32 := by
  decide +kernel

/-- V-HOST: unimplemented numbers. -/
theorem test_rdreg_faults :
    answer (exec (.rdreg 0x07) State.reset) = 0x82000000#32 ∧
      answer (exec (.rdreg 0x2A) State.reset) = 0x82000000#32 := by decide +kernel

theorem test_bufclr : (after (exec .bufclr n1)).buf = [] ∧ answer (exec .bufclr n1) = 0x00000000#32 := by
  decide +kernel

/-- V-HOST: the 2178th byte fits, the 2179th faults. -/
theorem test_bufpush :
    answer (exec (.bufpush 5) (filled 2177)) = 0x00000882#32 ∧
      answer (exec (.bufpush 6) (filled 2178)) = 0x83000000#32 := by decide +kernel

/-- R203: the byte goes to the end. -/
theorem test_bufpush_last : (after (exec (.bufpush 9) n1)).buf = [142, 164, 186, 9] := by decide +kernel

theorem test_bufrd :
    answer (exec (.bufrd 2) n1) = 0x000000BA#32 ∧ answer (exec (.bufrd 3) n1) = 0x84000000#32 := by decide +kernel

/-! ### Steps -/

/-- V-FAULT: an illegal word, and what comes after a fault. -/
theorem test_step_illegal :
    answer (step (State.reset.withFetchWord 32 0x00000000)) = 0x81000000#32 ∧
      answer (step (broken.withFetchWord 32 0x00000000)) = 0x84000000#32 := by decide +kernel

/-- `withFetchWord` makes the word the very next command. -/
theorem test_step_withFetchWord :
    answer (step (State.reset.withFetchWord 32 0x01008002)) = 0x0000002D#32 ∧
      (after (step (State.reset.withFetchWord 32 0x01008002))).inputs = [] := by decide +kernel

/-- R250: the reset event clears the fault and has no response. -/
theorem test_step_reset :
    (after (step { broken with inputs := [.reset] })).fault = false ∧
      (after (step { broken with inputs := [.reset] })).responses = [] := by decide +kernel

/-! ### Witnesses: the hypotheses of the statements are met -/

theorem witness_EncodeOfDecode : decode 0x10FFFFFF#32 = .ok (.wrreg 0xFF 65535) := by decide

theorem witness_WordIsCommandOfItsRow :
    (⟨"BUFPUSH", .p, 0x13000000#32⟩ : Row) ∈ rows ∧ 0x130000FF#32 &&& Format.p.mask = 0x13000000#32 := by decide

/-- Both clauses: an unassigned opcode and a must-be-zero bit. -/
theorem witness_IllegalWordFaults :
    (∀ row ∈ rows, 0x15000000#32 &&& row.format.mask ≠ row.matchWord) ∧
      (∀ row ∈ rows, 0x05800000#32 &&& row.format.mask ≠ row.matchWord) ∧ State.reset.fault = false := by decide

theorem witness_StepRunsDecodedCommand :
    ({ State.reset with inputs := [.command 0x12000000#32, .reset] } : State).inputs =
        .command 0x12000000#32 :: [.reset] ∧ decode 0x12000000#32 = .ok .bufclr := ⟨rfl, by decide⟩

theorem witness_ResetValues :
    ({ broken with inputs := [.reset] } : State).inputs = .reset :: [] ∧
      (State.resetFor Rom.defaults).AtResetValues Rom.defaults := by
  refine ⟨rfl, ?_⟩
  constructor <;> simp [State.resetFor, State.buflen, lenOf]

theorem witness_WaitsForHost : State.reset.inputs = [] := rfl

/-- A choice of the open parameters at the ends of their ranges is legal too. -/
theorem witness_ParamsLegal :
    ParamsLegal Rom.defaults ∧ ParamsLegal { Rom.defaults with bufMax := 65535, nblkMax := 224 } ∧
      ParamsLegal { Rom.defaults with bufMax := 1, nblkMax := 1 } :=
  ⟨defaultParams_legal, ⟨by decide, by decide, defaultField_legal, defaultGen_legal⟩,
    ⟨by decide, by decide, defaultField_legal, defaultGen_legal⟩⟩

/-- A state with a selection that meets the invariant. -/
theorem witness_Inv_selected : selected.Inv Rom.defaults where
  buffer := by decide +kernel
  blkdata := by decide +kernel
  lfsr := by decide +kernel
  status := .inl (by decide +kernel)
  selection := .inr ⟨0, by decide, by decide +kernel, by decide +kernel⟩
  faultState := .inl (by decide +kernel)
  responses := fun _ h => absurd h (List.not_mem_nil)

/-- A loaded state without a selection that meets the invariant. -/
theorem witness_Inv_loaded : n1.Inv Rom.defaults where
  buffer := by decide +kernel
  blkdata := by decide +kernel
  lfsr := by decide +kernel
  status := .inl (by decide +kernel)
  selection := .inl (by decide +kernel)
  faultState := .inl (by decide +kernel)
  responses := fun _ h => absurd h (List.not_mem_nil)

/-- A faulted state that meets the invariant. -/
theorem witness_Inv_broken : broken.Inv Rom.defaults where
  buffer := by decide +kernel
  blkdata := by decide +kernel
  lfsr := by decide +kernel
  status := .inl (by decide +kernel)
  selection := .inl (by decide +kernel)
  faultState := .inr (by decide +kernel)
  responses := fun _ h => absurd h (List.not_mem_nil)

theorem witness_StepKeepsInvariant :
    ParamsLegal Rom.defaults ∧ selected.Inv Rom.defaults ∧ ∃ t, step selected = .next t :=
  ⟨defaultParams_legal, witness_Inv_selected, _, rfl⟩

/-- The field laws: a legal field; log sums 254, 255 and 508, and both branches of the reduction. -/
theorem witness_field :
    FieldLegal Rom.defaults.field ∧ (75#8 ≠ 0 ∧ 2#8 ≠ 0 ∧ 150#8 ≠ 0) ∧
      logOf Rom.defaults.field 75 + logOf Rom.defaults.field 2 = 254 ∧
      logOf Rom.defaults.field 2 + logOf Rom.defaults.field 150 = 255 ∧
      logOf Rom.defaults.field 150 + logOf Rom.defaults.field 150 = 508 :=
  ⟨defaultField_legal, by decide, by decide +kernel, by decide +kernel, by decide +kernel⟩

theorem witness_GfmulResult : State.reset.fault = false ∧ broken.fault = true := by decide +kernel

theorem witness_LookupByExactLength : genLen[0]? = some 5 ∧ genLen[15]? = some 68 ∧ 69 ∉ genLen ∧ 6 ∉ genLen := by
  decide

theorem witness_GenfindResult :
    genLen[15]? = some (68#16).toNat ∧ (65535#16).toNat ∉ genLen ∧ State.reset.fault = false ∧ broken.fault = true := by
  decide +kernel

/-- `k` = `GLEN - 1`, `k` = `GLEN`, nothing selected, and a faulted instance. -/
theorem witness_GenrdResult :
    (selected.Inv Rom.defaults ∧ selected.fault = false ∧ selected.gsel.getLsbD 15 = true ∧
        (4#16).toNat < selected.glen.toNat ∧ selected.glen.toNat ≤ (5#16).toNat) ∧
      (n1.Inv Rom.defaults ∧ n1.fault = false ∧ n1.gsel.getLsbD 15 = false) ∧
      broken.Inv Rom.defaults ∧ broken.fault = true :=
  ⟨⟨witness_Inv_selected, by decide +kernel⟩, ⟨witness_Inv_loaded, by decide +kernel⟩, witness_Inv_broken, rfl⟩

theorem witness_CatalogIsConstructed : 5 ∈ genLen ∧ 68 ∈ genLen := by decide

theorem witness_ShiftRegisterStep : 0 < 5 ∧ Rom.gen0.length = 5 ∧ (List.replicate 5 (0 : Byte)).length = 5 := by decide

/-- The generator of length 5 has a root: `α`. -/
theorem witness_CodewordVanishesAtRoots :
    FieldLegal Rom.defaults.field ∧ evalPoly Rom.defaults.field (monic Rom.gen0) 2 = 0 :=
  ⟨defaultField_legal, by decide +kernel⟩

theorem witness_ErrorCodewordsAreLinear :
    FieldLegal Rom.defaults.field ∧ ([1, 2, 3] : List Byte).length = ([142, 164, 186] : List Byte).length :=
  ⟨defaultField_legal, rfl⟩

theorem witness_ZeroAndUnitData : FieldLegal Rom.defaults.field ∧ 0 < Rom.gen0.length :=
  ⟨defaultField_legal, by decide⟩

/-- E10: the last ECC index is `BUFLEN - 1`. -/
theorem witness_accepted_e10 : e10.param.Accepted e10.buf.length := by constructor <;> decide +kernel

theorem witness_accepted_e12 : e12.param.Accepted e12.buf.length := by constructor <;> decide +kernel

theorem witness_BlockComputation : GenLegal Rom.defaults.gen ∧ e10.param.Accepted e10.buf.length :=
  ⟨defaultGen_legal, witness_accepted_e10⟩

/-- E16, E18, E19, E20, and E20 with no data: the four checks. -/
theorem witness_EccblkChecks :
    (let s := withParams [1, 2, 3, 0, 0, 0, 0, 0, 0] 0 3 3 6 1; s.fault = false ∧ s.param.eccLen.toNat ∉ genLen) ∧
      (let s := withParams [1, 2, 3, 0, 0, 0, 0, 0] 0 3 3 5 0;
        s.fault = false ∧ s.param.eccLen.toNat ∈ genLen ∧ s.param.stride = 0) ∧
      (let s := withParams [1, 2, 3, 0, 0, 0, 0, 0] 6 3 3 5 1;
        s.fault = false ∧ s.param.eccLen.toNat ∈ genLen ∧ s.param.stride ≠ 0 ∧ 0 < s.param.codeLen.toNat ∧
          s.buf.length = s.param.codeOff.toNat + (s.param.codeLen.toNat - 1) * s.param.stride.toNat) ∧
      (let s := withParams [1, 2, 3, 0, 0, 0, 0, 0] 5 3 4 5 1;
        s.fault = false ∧ s.param.eccLen.toNat ∈ genLen ∧ s.param.stride ≠ 0 ∧
          s.param.codeOff.toNat + (s.param.codeLen.toNat - 1) * s.param.stride.toNat < s.buf.length ∧
          s.buf.length = s.param.eccOff.toNat + (s.param.eccLen.toNat - 1) * s.param.stride.toNat) ∧
      (let s := withParams [1, 2, 3, 0, 0, 0, 0, 0] 500 0 4 5 1;
        s.fault = false ∧ s.param.eccLen.toNat ∈ genLen ∧ s.param.stride ≠ 0 ∧ s.param.codeLen.toNat = 0 ∧
          s.buf.length = s.param.eccOff.toNat + (s.param.eccLen.toNat - 1) * s.param.stride.toNat) := by
  decide +kernel

theorem witness_EccblkResult : e10.fault = false ∧ e10.param.Accepted e10.buf.length :=
  ⟨rfl, witness_accepted_e10⟩

/-- E10 and the same data elsewhere in another buffer. -/
theorem witness_EccblkDependsOnDataOnly :
    (e10.fault = false ∧ e12.fault = false) ∧ e10.param.Accepted e10.buf.length ∧ e12.param.Accepted e12.buf.length ∧
      (e10.param.eccLen = e12.param.eccLen ∧ e10.param.codeLen = e12.param.codeLen) ∧
      (∀ j < e10.param.codeLen.toNat,
        e10.buf[e10.param.codeOff.toNat + j * e10.param.stride.toNat]? =
          e12.buf[e12.param.codeOff.toNat + j * e12.param.stride.toNat]?) ∧
      (∃ t, exec .eccblk e10 = .next t) ∧ ∃ t, exec .eccblk e12 = .next t :=
  ⟨by decide +kernel, witness_accepted_e10, witness_accepted_e12, by decide +kernel, by decide +kernel, ⟨_, rfl⟩,
    ⟨_, rfl⟩⟩

/-- N12, N17, N18, N15, N16, N20, N21, N22, N23, N24: each of the seven checks is the first to apply. -/
theorem witness_EncodeChecks :
    (let s := withDesc [142, 164] (descOf 3 8 1 5 0 []); s.fault = false ∧ s.buf.length ≠ s.desc.dcap.toNat) ∧
      (let s := withDesc [142, 164, 186] (descOf 3 8 0 6 0 []);
        s.buf.length = s.desc.dcap.toNat ∧ s.desc.nblk.toNat = 0) ∧
      (let s := withDesc [142, 164, 186] (descOf 3 8 11 0 5 []);
        s.buf.length = s.desc.dcap.toNat ∧ s.desc.nblk.toNat = 10 + 1) ∧
      (let s := withDesc [142, 164, 186] (descOf 3 8 1 6 0 []);
        s.buf.length = s.desc.dcap.toNat ∧ s.desc.nblk.toNat = 1 ∧ s.desc.errcw.toNat ∉ genLen) ∧
      (let s := withDesc [1, 2, 3, 4] (descOf 4 16 10 5 6 [2, 2]);
        s.buf.length = s.desc.dcap.toNat ∧ s.desc.nblk.toNat = 10 ∧ s.desc.blkerr.toNat ∉ genLen) ∧
      (let s := withDesc [142, 164, 186] (descOf 3 2 1 5 0 []);
        s.buf.length = s.desc.dcap.toNat ∧ s.desc.nblk.toNat = 1 ∧ s.desc.errcw.toNat ∈ genLen ∧
          s.desc.cwcnt.toNat + 1 = s.desc.dcap.toNat) ∧
      (let s := withDesc [142, 164, 186] (descOf 3 2179 1 5 0 []);
        s.buf.length = s.desc.dcap.toNat ∧ s.desc.nblk.toNat = 1 ∧ s.desc.errcw.toNat ∈ genLen ∧
          s.desc.dcap.toNat ≤ s.desc.cwcnt.toNat ∧ s.desc.cwcnt.toNat = 2178 + 1) ∧
      (let s := withDesc [142, 164, 186] (descOf 3 7 1 5 0 []);
        s.buf.length = s.desc.dcap.toNat ∧ s.desc.nblk.toNat = 1 ∧ s.desc.errcw.toNat ∈ genLen ∧
          s.desc.dcap.toNat ≤ s.desc.cwcnt.toNat ∧ s.desc.cwcnt.toNat + 1 = s.desc.dcap.toNat + s.desc.errcw.toNat) ∧
      (let s := withDesc [1, 2, 3, 4, 5, 6] (descOf 6 15 2 0 5 [3, 3]);
        s.buf.length = s.desc.dcap.toNat ∧ 1 < s.desc.nblk.toNat ∧ s.desc.blkerr.toNat ∈ genLen ∧
          s.desc.dcap.toNat ≤ s.desc.cwcnt.toNat ∧
          s.desc.cwcnt.toNat = s.desc.dcap.toNat + 1 + (s.desc.blkerr.toNat - 1) * s.desc.nblk.toNat) ∧
      (let s := withDesc [1, 2, 3, 4, 5, 6] (descOf 6 16 2 0 5 [9, 3]);
        s.buf.length = s.desc.dcap.toNat ∧ 1 < s.desc.nblk.toNat ∧ s.desc.blkerr.toNat ∈ genLen ∧
          0 < s.desc.blockData 1 ∧ s.desc.cwcnt.toNat = (s.desc.blockData 1 - 1) * s.desc.nblk.toNat) := by
  decide +kernel

theorem witness_accepted_n1 : n1.desc.Accepted Rom.defaults := by
  constructor <;> decide +kernel

theorem witness_accepted_n9 : n9.desc.Accepted Rom.defaults := by
  constructor <;> decide +kernel

theorem witness_accepted_n28 : n28.desc.Accepted Rom.defaults := by
  constructor <;> decide +kernel

/-- N27: `CWCNT` = `BUF_MAX` fits. -/
theorem witness_accepted_n27 : (descOf 1 2178 1 5 0 []).Accepted Rom.defaults := by
  constructor <;> decide +kernel

/-- The premises of the statements about a successful `ENCODE` of one block. -/
theorem witness_EncodeSingleBlock :
    n1.fault = false ∧ n1.buf.length = n1.desc.dcap.toNat ∧ n1.desc.Accepted Rom.defaults ∧ n1.desc.nblk = 1 ∧
      n1.desc.cwcnt ≠ n1.desc.dcap ∧ ∃ t, exec .encode n1 = .next t :=
  ⟨rfl, rfl, witness_accepted_n1, rfl, by decide +kernel, _, rfl⟩

theorem witness_EncodedSymbolIsCodeword : 1 ≤ 5 ∧ 5 ≤ n1.desc.errcw.toNat := by decide +kernel

/-- N28: data positions reach into the ECC region. -/
theorem witness_EncodeRunsBlocksInOrder :
    n28.fault = false ∧ n28.buf.length = n28.desc.dcap.toNat ∧ n28.desc.Accepted Rom.defaults ∧
      1 < n28.desc.nblk.toNat :=
  ⟨rfl, rfl, witness_accepted_n28, by decide +kernel⟩

theorem witness_dataBelowEcc_n9 : DataBelowEcc n9.desc := by unfold DataBelowEcc; decide +kernel

theorem witness_EncodeInterleavedBlocks :
    n9.fault = false ∧ n9.buf.length = n9.desc.dcap.toNat ∧ n9.desc.Accepted Rom.defaults ∧ 1 < n9.desc.nblk.toNat ∧
      DataBelowEcc n9.desc ∧ ∃ t, exec .encode n9 = .next t :=
  ⟨rfl, rfl, witness_accepted_n9, by decide +kernel, witness_dataBelowEcc_n9, _, rfl⟩

theorem witness_BlockOrderNotObservable :
    GenLegal Rom.defaults.gen ∧ n9.desc.Accepted Rom.defaults ∧ 1 < n9.desc.nblk.toNat ∧ DataBelowEcc n9.desc ∧
      (n9.desc.grow n9.work).buf.length = n9.desc.cwcnt.toNat ∧ [2, 0, 1].Perm (List.range n9.desc.nblk.toNat) :=
  ⟨defaultGen_legal, witness_accepted_n9, by decide +kernel, witness_dataBelowEcc_n9, by decide +kernel,
    by decide +kernel⟩

theorem witness_TilingCoversTheBuffer : n9.desc.TilesInterleaved := by unfold Desc.TilesInterleaved; decide +kernel

theorem witness_EncodeDependsOnBufferAndDescriptor :
    let s' : State := { n1 with res := 9, gsel := 0x8000, glen := 5, status := 2, errinfo0 := 6 };
    n1.fault = false ∧ s'.fault = false ∧ n1.buf = s'.buf ∧ n1.desc = s'.desc ∧ (∃ t, exec .encode n1 = .next t) ∧
      ∃ t, exec .encode s' = .next t :=
  ⟨rfl, rfl, rfl, rfl, ⟨_, rfl⟩, ⟨_, rfl⟩⟩

/-- The ends of the ranges of `WRREG` and `RDREG`, and a register of `BLKDATA` that is there. -/
theorem witness_WrregResult :
    State.reset.fault = false ∧ broken.fault = true ∧ (1 ≤ 1 ∧ 10 ≤ 10) ∧
      ((0x07#8).toNat ≤ 0x07 ∧ 0x0D ≤ (0x0D#8).toNat ∧ (0x1F#8).toNat ≤ 0x1F ∧ 0x2A ≤ (0x2A#8).toNat ∧
        0x2A ≤ (0xFF#8).toNat) ∧
      State.reset.desc.blkdata[1 - 1]? = some 0 ∧ State.reset.desc.blkdata[10 - 1]? = some 0 := by decide +kernel

theorem witness_WrittenRegisterReadsBack :
    selected.Inv Rom.defaults ∧ selected.fault = false ∧
      (∃ t, exec (.wrreg 0x29 7) selected = .next t ∧ t.fault = false) ∧ 0x28#8 ≠ 0x29#8 ∧
      exec (.rdreg 0x28) selected = .next (answered (okResponse 0) selected) :=
  ⟨witness_Inv_selected, rfl, ⟨_, rfl, by decide +kernel⟩, by decide, by
    rw [exec_rdreg]; congr 1⟩

theorem witness_BufpushResult :
    ((filled 2177).fault = false ∧ (filled 2177).buf.length ≠ 2178) ∧ (filled 2178).buf.length = 2178 := by
  decide +kernel

theorem witness_BufrdResult :
    n1.fault = false ∧ n1.buf[(2#16).toNat]? = some 186 ∧ n1.buf.length ≤ (3#16).toNat := by decide +kernel

theorem witness_PseudoInstructionsDoWhatTheyName :
    ParamsLegal Rom.defaults ∧ n1.fault = false ∧ ([1, 2] : List Byte).length ≤ Rom.defaults.bufMax ∧
      (1 ≤ 10 ∧ 10 ≤ Rom.defaults.nblkMax) ∧ n1.buf.length ≤ Rom.defaults.bufMax :=
  ⟨defaultParams_legal, rfl, by decide +kernel⟩

theorem witness_FaultIsSticky :
    let s : State := { broken with inputs := [.command 0x12000000#32] };
    s.fault = true ∧ s.inputs.head? ≠ some .reset ∧ ∃ t, step s = .next t :=
  ⟨rfl, by decide, _, rfl⟩

/-- A command of each kind that faults. -/
theorem witness_FaultsChangeNothingElse :
    State.reset.fault = false ∧
      (∃ t, exec (.rdreg 0xFF) State.reset = .next t ∧ t.fault = true) ∧
      (∃ t, exec (.bufpush 6) (filled 2178) = .next t ∧ t.fault = true) ∧
      (∃ t, exec (.bufrd 0) State.reset = .next t ∧ t.fault = true) ∧
      ∃ t, exec .encode State.reset = .next t ∧ t.fault = true :=
  ⟨rfl, ⟨_, rfl, by decide +kernel⟩, ⟨_, rfl, by decide +kernel⟩, ⟨_, rfl, by decide +kernel⟩, _, rfl,
    by decide +kernel⟩

/-- E21: a command that ends in a documented error. -/
theorem witness_ErrorsChangeStatusOnly :
    State.reset.fault = false ∧
      ∃ t r, exec .eccblk State.reset = .next t ∧ t.responses.head? = some r ∧ r.extractLsb' 30 2 = 1#2 :=
  ⟨rfl, _, 0x42000000#32, rfl, by decide +kernel, by decide⟩

/-- The statements over every command: one that ends OK and one that does not. -/
theorem witness_everyCommand :
    (∃ t, exec .encode n1 = .next t ∧ t.fault = false) ∧ (∃ t, exec .bufclr n1 = .next t) ∧
      ∃ t, exec (.genrd 5) selected = .next t ∧ t.fault = true :=
  ⟨⟨_, rfl, by decide +kernel⟩, ⟨_, rfl⟩, _, rfl, by decide +kernel⟩

theorem witness_OneLegalResponsePerCommand : selected.Inv Rom.defaults := witness_Inv_selected

/-- Both clauses of the statement about the status registers. -/
theorem witness_StatusDescribesLastOfThree :
    n1.fault = false ∧ (∃ t, exec .encode n1 = .next t ∧ t.fault = false) ∧
      (∃ t, exec (.genfind 6) n1 = .next t ∧ t.fault = false) ∧
      (∀ n, Instr.bufclr ≠ .genfind n) ∧ Instr.bufclr ≠ .eccblk ∧ Instr.bufclr ≠ .encode :=
  ⟨rfl, ⟨_, rfl, by decide +kernel⟩, ⟨_, rfl, by decide +kernel⟩, by simp, by decide, by decide⟩

theorem witness_FrameOfNonStoringCommands :
    (∃ t, exec (.wrreg 0x08 3) n1 = .next t ∧ t.fault = false) ∧ 0x09#8 ≠ 0x08#8 ∧
      regOf Rom.defaults 0x09 = some .cwcnt :=
  ⟨⟨_, rfl, by decide +kernel⟩, by decide, by decide +kernel⟩

theorem witness_FrameOfStoringCommands :
    (∃ t, exec .eccblk e3 = .next t ∧ t.fault = false) ∧
      ∀ k < e3.param.eccLen.toNat, 7 ≠ stridedIndex e3.param.eccOff.toNat e3.param.stride.toNat k :=
  ⟨⟨_, rfl, by decide +kernel⟩, by decide +kernel⟩

theorem witness_HiddenRegisterIsUnobservable : ∃ t, step (e3.withFetchWord 32 0x04000000) = .next t := ⟨_, rfl⟩

theorem witness_UnitsDoNotInterfere :
    ∃ t u v, exec (.genfind 5) n1 = .next t ∧ t.fault = false ∧ exec .encode n1 = .next u ∧ exec .encode t = .next v :=
  ⟨_, _, _, rfl, by decide +kernel, rfl, rfl⟩

theorem witness_InstancesAreIndependent :
    0 ≠ 1 ∧ (∃ sys', stepAt 0 [n1, e3] = .next sys') ∧ [n1, e3][0]? = some n1 := ⟨by decide, ⟨_, rfl⟩, rfl⟩

end Sys2Proof.Tests
end

section
/-! PROOFS. The machine of the host's interface is the generic machine at the default parameters
(spec/00_scope.md R8). -/

namespace Sys2Proof.Machine

/-- A word runs the command it decodes to, so the two machines agree on words because they agree on commands. -/
theorem runWord_eq_commandWord (w : Word) (s : State) : runWord w s = .next (commandWord Rom.defaults w s) := by
  unfold runWord commandWord
  cases decode w with
  | ok i => exact exec_eq_command i s
  | error _ => rfl

/-- `step` is the generic step at the default parameters: waiting, reset and a presented word, each alike. -/
theorem step_eq_advance (s : State) : step s = .next (advance Rom.defaults s) := by
  unfold step advance
  cases s.inputs with
  | nil => rfl
  | cons input rest =>
    cases input with
    | reset => rfl
    | command w => exact runWord_eq_commandWord w (s.consume rest)

/-- Settles O7: the commands agree arm by arm, hence the words do, hence the steps. -/
theorem machineIsGenericAtDefaults : Obligations.MachineIsGenericAtDefaults :=
  ⟨exec_eq_command, step_eq_advance⟩

end Sys2Proof.Machine
end

section
/-! PROOFS. How a command ends, as one inductive relation (spec/60_exceptions.md R226, R227): `command_cases` with a
name for each ending, so that a property of every command is proved by cases on the ending. -/

namespace Sys2Proof.Machine

open Sys2Proof.Config

/-- The commands that raise no fault of their own (R224 lists none for them). -/
def raisesNoFault : Instr → Bool
  | .gfmul _ _ | .genfind _ | .bufclr => true
  | _ => false

/-- The command `i` takes the state `s` to the given state; each ending carries the checks that led to it. -/
inductive CommandEnds (P : Params) (s : State) : Instr → State → Prop
  /-- `FAULT` was set before the command (R227). -/
  | answersFault {i} : s.fault = true → CommandEnds P s i (answerFault s)
  | faults {i c} : s.fault = false → c ≠ .illegalCommand → raisesNoFault i = false →
      CommandEnds P s i (takeFault c s)
  | gfmul {a b} : CommandEnds P s (.gfmul a b)
      (respondOk (zext16 (gfmul P.field a b)) { s with res := gfmul P.field a b })
  | genfind {n j} : findGenerator n.toNat = some j → CommandEnds P s (.genfind n)
      (respondOk (lenOf j) ({ s with gsel := selectWord j, glen := n }.recordSuccess))
  | genfindFails {n} : n.toNat ∉ genLen → CommandEnds P s (.genfind n)
      (raiseError (.unsupportedRedundancyLength n) { s with gsel := 0, glen := 0 })
  | genrd {k d} : CommandEnds P s (.genrd k) (respondOk d s)
  | rdreg {r x} : regOf P r = some x → CommandEnds P s (.rdreg r) (respondOk (s.readReg x) s)
  | bufrd {k v} : s.buf.read k.toNat = some v → CommandEnds P s (.bufrd k) (respondOk (zext16 v) s)
  | wrreg {r v x} : regOf P r = some x → x.writable = true →
      CommandEnds P s (.wrreg r v) (respondOk 0 (s.writeReg v x))
  | bufclr : CommandEnds P s .bufclr (respondOk 0 { s with buf := [] })
  | bufpush {v} : s.buf.length ≠ P.bufMax → CommandEnds P s (.bufpush v)
      (respondOk (lenOf (s.buf.length + 1)) { s with buf := s.buf.push v })
  | eccblkFails : s.param.eccLen.toNat ∉ genLen →
      CommandEnds P s .eccblk (raiseError (.unsupportedRedundancyLength s.param.eccLen) s)
  | eccblk : s.param.Accepted s.buf.length → CommandEnds P s .eccblk
      (finishWork (.ok (runBlock P s.param.codeOff.toNat s.param.codeLen.toNat s.param.eccOff.toNat
        s.param.eccLen.toNat s.param.stride.toNat s.work)) s)
  | encodeMiscounts : s.buf.length ≠ s.desc.dcap.toNat →
      CommandEnds P s .encode (raiseError (.codewordCountMismatch s.desc.dcap s.buflen) s)
  | encodeFails : s.desc.eccLength.toNat ∉ genLen →
      CommandEnds P s .encode (raiseError (.unsupportedRedundancyLength s.desc.eccLength) s)
  | encode : s.buf.length = s.desc.dcap.toNat → s.desc.Accepted P →
      CommandEnds P s .encode (finishWork (.ok (s.desc.runSteps P (s.desc.grow s.work))) s)

/-- A command that raises no fault of its own leaves `FAULT` as it is. -/
theorem command_fault_of_raisesNoFault (P : Params) {i : Instr} (hi : raisesNoFault i = true) (s : State) :
    (command P i s).fault = s.fault := by
  cases i with
  | gfmul a b => exact unlessFaulted_rec (p := fun t => t.fault = s.fault) (fun _ => rfl) fun _ => rfl
  | bufclr => exact unlessFaulted_rec (p := fun t => t.fault = s.fault) (fun _ => rfl) fun _ => rfl
  | genfind n =>
    refine unlessFaulted_rec (p := fun t => t.fault = s.fault) (fun _ => rfl) fun _ => ?_
    cases findGenerator n.toNat <;> rfl
  | _ => exact absurd hi Bool.false_ne_true

/-- The relation is the command's own: every command ends in one of these ways. -/
theorem command_ends (P : Params) (i : Instr) (s : State) : CommandEnds P s i (command P i s) := by
  cases h : s.fault with
  | true => exact command_of_fault P i h ▸ .answersFault h
  | false =>
    rcases command_cases P i h with ⟨c, e, hc⟩ | ⟨a, b, rfl, e⟩ | ⟨n, j, rfl, hj, e⟩ | ⟨n, rfl, hn, e⟩ |
      ⟨k, d, rfl, e⟩ | ⟨r, x, rfl, hx, e⟩ | ⟨k, v, rfl, hv, e⟩ | ⟨r, v, x, rfl, hx, hw, e⟩ | ⟨rfl, e⟩ |
      ⟨v, rfl, hne, e⟩ | ⟨rfl, hn, e⟩ | ⟨rfl, ha, e⟩ | ⟨rfl, hne, e⟩ | ⟨rfl, hn, e⟩ | ⟨rfl, hl, ha, e⟩ <;> rw [e]
    · refine .faults h hc (Bool.eq_false_iff.2 fun hi => ?_)
      have := command_fault_of_raisesNoFault P hi s
      rw [e, h] at this
      cases this
    · exact .gfmul
    · exact .genfind hj
    · exact .genfindFails hn
    · exact .genrd
    · exact .rdreg hx
    · exact .bufrd hv
    · exact .wrreg hx hw
    · exact .bufclr
    · exact .bufpush hne
    · exact .eccblkFails hn
    · exact .eccblk ha
    · exact .encodeMiscounts hne
    · exact .encodeFails hn
    · exact .encode hl ha

/-- The same for `exec`, the machine at the default parameters. -/
theorem exec_ends {i : Instr} {s t : State} (h : exec i s = .next t) : CommandEnds Rom.defaults s i t := by
  obtain rfl : command Rom.defaults i s = t := by simpa [exec_eq_command] using h
  exact command_ends Rom.defaults i s

end Sys2Proof.Machine
end

section
/-! PROOFS. The invariant of Safety.lean: it holds at reset (spec/10_state.md R45) and every step keeps it, operation by
operation. -/

namespace Sys2Proof.Machine

open Sys2Proof.Config

/-! ### The responses of R97 -/

theorem okWord_legal (d : Len) : LegalResponse (okWord d) := by simp [LegalResponse, okWord]

theorem errorWord_legal (e : DocError) : LegalResponse (errorWord e) := by
  cases e <;> simp [LegalResponse, errorWord, DocError.kind]

theorem faultWord_legal {c : BitVec 3} (h1 : 1 ≤ c.toNat) (h5 : c.toNat ≤ 5) : LegalResponse (faultWord c) := by
  simp [LegalResponse, faultWord, Nat.mod_eq_of_lt (show c.toNat < 64 by omega), h1, h5]

theorem code_range (c : FaultCause) : 1 ≤ c.code.toNat ∧ c.code.toNat ≤ 5 := by cases c <;> decide

/-! ### The payload of a documented error -/

/-- The payload a documented error must carry for the status registers to be legal (R35, R220). -/
def DocError.Legal : DocError → Prop
  | .codewordCountMismatch expected actual => expected ≠ actual
  | .unsupportedRedundancyLength requested => requested.toNat ∉ genLen

theorem recordError_statusLegal {e : DocError} (he : e.Legal) (s : State) : (s.recordError e).StatusLegal := by
  cases e with
  | codewordCountMismatch expected actual => exact .inr (.inl ⟨rfl, he⟩)
  | unsupportedRedundancyLength n => exact .inr (.inr ⟨rfl, he, rfl⟩)

/-! ### One lemma per operation -/

section
variable {P : Params} {s : State}

theorem State.Inv.respond (h : s.Inv P) {r : Word} (hr : LegalResponse r) : (s.respond r).Inv P :=
  { h with responses := List.forall_mem_cons.2 ⟨hr, h.responses⟩ }

theorem State.Inv.respondOk (h : s.Inv P) (d : Len) : (respondOk d s).Inv P := h.respond (okWord_legal d)

theorem State.Inv.recordSuccess (h : s.Inv P) : s.recordSuccess.Inv P := { h with status := .inl ⟨rfl, rfl, rfl⟩ }

theorem State.Inv.raiseError (h : s.Inv P) {e : DocError} (he : e.Legal) : (raiseError e s).Inv P :=
  State.Inv.respond (s := s.recordError e) { h with status := recordError_statusLegal he s } (errorWord_legal e)

theorem State.Inv.takeFault (h : s.Inv P) (c : FaultCause) : (takeFault c s).Inv P :=
  have ⟨h1, h5⟩ := code_range c
  State.Inv.respond (s := { s with fault := true, fcause := c.code })
    { h with faultState := .inr ⟨rfl, h1, h5⟩ } (faultWord_legal h1 h5)

theorem State.Inv.answerFault (h : s.Inv P) (hf : s.fault = true) : (answerFault s).Inv P := by
  rcases h.faultState with ⟨hf', -⟩ | ⟨-, h1, h5⟩
  · rw [hf] at hf'; cases hf'
  · exact h.respond (faultWord_legal h1 h5)

theorem State.Inv.writeReg (h : s.Inv P) (v : Len) (x : Reg) : (s.writeReg v x).Inv P := by
  have hlen := (writeReg_blkdata_length v x s).trans h.blkdata
  rw [writeReg_eq] at hlen ⊢
  exact { h with blkdata := hlen }

theorem State.Inv.select (h : s.Inv P) {n : Len} {j : Nat} (hj : findGenerator n.toNat = some j) :
    ({ s with gsel := selectWord j, glen := n } : State).Inv P :=
  have ⟨h16, hn⟩ := findGenerator_some hj
  { h with selection := .inr ⟨j, h16, rfl, hn.symm⟩ }

theorem State.Inv.deselect (h : s.Inv P) : ({ s with gsel := 0, glen := 0 } : State).Inv P :=
  { h with selection := .inl ⟨rfl, rfl⟩ }

theorem State.Inv.setRes (h : s.Inv P) (x : Byte) : ({ s with res := x } : State).Inv P := { h with }

theorem State.Inv.setBuf (h : s.Inv P) {m : Memory} (hm : Memory.wf P m = true) : ({ s with buf := m } : State).Inv P :=
  { h with buffer := hm }

/-- A computation that keeps the buffer in the RAM and the depth of `R` may store its work. -/
theorem State.Inv.finishWork (h : s.Inv P) {w : Work} (hbuf : Memory.wf P w.buf = true)
    (hR : w.lfsr.length = lfsrDepth) : (finishWork (.ok w) s).Inv P :=
  State.Inv.respondOk (State.Inv.recordSuccess (s := { s with buf := w.buf, lfsr := w.lfsr })
    { h with buffer := hbuf, lfsr := hR }) _

/-- `BUFLEN` tells the buffer's length: no length up to `BUF_MAX` wraps in the 16-bit register (R25). -/
theorem State.Inv.buflen_toNat (h : s.Inv P) (hP : P.bufMax ≤ 65535) : s.buflen.toNat = s.buf.length := by
  have hle : s.buf.length ≤ P.bufMax := of_decide_eq_true h.buffer
  exact (BitVec.toNat_ofNat _ _).trans (Nat.mod_eq_of_lt (by omega))

theorem State.Inv.illegalCommand (h : s.Inv P) : (illegalCommand s).Inv P :=
  unlessFaulted_rec (p := fun t => t.Inv P) h.answerFault fun _ => h.takeFault _

theorem State.Inv.consume (h : s.Inv P) (rest : List HostInput) : (s.consume rest).Inv P := { h with }

end

/-! ### Reset, commands, steps -/

theorem resetFor_inv (P : Params) : (State.resetFor P).Inv P where
  buffer := empty_wf P
  blkdata := List.length_replicate
  lfsr := List.length_replicate
  status := .inl ⟨rfl, rfl, rfl⟩
  selection := .inl ⟨rfl, rfl⟩
  faultState := .inl ⟨rfl, rfl⟩
  responses := fun _ h => absurd h List.not_mem_nil

theorem State.Inv.resetEvent {P : Params} {s : State} (h : s.Inv P) : (resetEvent P s).Inv P :=
  { resetFor_inv P with responses := h.responses }

theorem command_keeps_inv {P : Params} (hP : ParamsLegal P) {s : State} (h : s.Inv P) (i : Instr) :
    (command P i s).Inv P := by
  have hends := command_ends P i s
  generalize command P i s = t at hends
  cases hends with
  | answersFault hf => exact h.answerFault hf
  | faults => exact h.takeFault _
  | gfmul => exact (h.setRes _).respondOk _
  | genfind hj => exact (h.select hj).recordSuccess.respondOk _
  | genfindFails hn => exact h.deselect.raiseError hn
  | genrd => exact h.respondOk _
  | rdreg => exact h.respondOk _
  | bufrd => exact h.respondOk _
  | wrreg => exact (h.writeReg _ _).respondOk _
  | bufclr => exact (h.setBuf (empty_wf P)).respondOk _
  | bufpush hne => exact (h.setBuf (push_wf h.buffer hne _)).respondOk _
  | eccblkFails hn => exact h.raiseError hn
  | eccblk ha =>
    refine h.finishWork ?_ (runBlock_lfsr_length hP.gen ha.length _ _ _ _ h.lfsr)
    rw [Memory.wf, runBlock_buf_length]
    exact h.buffer
  | encodeMiscounts hne =>
    refine h.raiseError (e := .codewordCountMismatch _ _) fun he => hne ?_
    rw [← h.buflen_toNat hP.bufMax.2, ← he]
  | encodeFails hn => exact h.raiseError hn
  | encode hl ha =>
    refine h.finishWork ?_ (runSteps_lfsr_length hP.gen ha.length h.lfsr)
    rw [Memory.wf, runSteps_buf_length]
    exact growTo_wf h.buffer ha.capacity

theorem commandWord_keeps_inv {P : Params} (hP : ParamsLegal P) {s : State} (h : s.Inv P) (w : Word) :
    (commandWord P w s).Inv P := by
  unfold commandWord
  cases decode w with
  | ok i => exact command_keeps_inv hP h i
  | error _ => exact h.illegalCommand

theorem advance_keeps_inv {P : Params} (hP : ParamsLegal P) {s : State} (h : s.Inv P) : (advance P s).Inv P := by
  unfold advance
  cases s.inputs with
  | nil => exact h
  | cons input rest =>
    cases input with
    | reset => exact (h.consume rest).resetEvent
    | command w => exact commandWord_keeps_inv hP (h.consume rest) w

/-- Settles O11: every operation a step is made of keeps the invariant, and the default parameters are legal. -/
theorem stepKeepsInvariant : Obligations.StepKeepsInvariant := by
  refine ⟨fun P hP s h => advance_keeps_inv hP h, fun s t h hst => ?_⟩
  obtain rfl : advance Rom.defaults s = t := by simpa [step_eq_advance] using hst
  exact advance_keeps_inv defaultParams_legal h

/-- Settles O10: the reset state meets the invariant for any parameters, the default ones among them. -/
theorem resetMeetsInvariant : Obligations.ResetMeetsInvariant := resetFor_inv Rom.defaults

end Sys2Proof.Machine
end

section
/-! PROOFS. The multiplier of every legal `FIELD` is the product of polynomials modulo its own `p`
(spec/41_gf256_multiply.md R122, R125, R128), from which the laws of a field follow. Everything about the product comes
from one fact: a map that respects `XOR` and multiplication by `x` respects every product (`map_polyMul`). -/

namespace Sys2Proof.Machine

open Sys2Proof.Config

/-! ### Multiplication by `x` -/

/-- Multiplication by `x` is a shift, then the low byte of `p` added where a bit fell out (R125). -/
theorem xtimes_eq (p : BitVec 9) (v : Byte) : xtimes p v = v <<< 1 ^^^ (if v.msb then p.setWidth 8 else 0) := by
  unfold xtimes
  cases v.msb
  · simp
  · ext i hi
    simp

theorem ite_xor_ite (c d : Bool) (v : Byte) :
    (if c ^^ d then v else 0) = (if c then v else 0) ^^^ (if d then v else 0) := by
  cases c <;> cases d <;> simp

theorem xtimes_xor (p : BitVec 9) (a b : Byte) : xtimes p (a ^^^ b) = xtimes p a ^^^ xtimes p b := by
  have hshift : (a ^^^ b) <<< 1 = a <<< 1 ^^^ b <<< 1 := BitVec.shiftLeft_xor_distrib ..
  rw [xtimes_eq, xtimes_eq, xtimes_eq, BitVec.msb_xor, hshift, ite_xor_ite]
  ac_rfl

/-- A map that respects addition of polynomials and multiplication by `x`. -/
structure RespectsShift (p : BitVec 9) (f : Byte → Byte) : Prop where
  xor : ∀ a b, f (a ^^^ b) = f a ^^^ f b
  xtimes : ∀ a, f (xtimes p a) = xtimes p (f a)

theorem RespectsShift.zero {p : BitVec 9} {f : Byte → Byte} (hf : RespectsShift p f) : f 0 = 0 := by
  simpa using hf.xor 0 0

theorem xtimes_respectsShift (p : BitVec 9) : RespectsShift p (xtimes p) := ⟨xtimes_xor p, fun _ => rfl⟩

/-! ### The product of polynomials modulo `p` -/

/-- One step of the product: the accumulator times `x`, then `a` added where `b` has the bit (Horner). -/
def hornerStep (p : BitVec 9) (a b acc : Byte) (t : Nat) : Byte := xtimes p acc ^^^ (if b.getLsbD t then a else 0)

theorem polyMul_eq_foldl (p : BitVec 9) (a b : Byte) :
    polyMul p a b = (List.range 8).reverse.foldl (hornerStep p a b) 0 := rfl

/-- A product is made of `XOR`s and multiplications by `x` of its left factor, so `f` passes through it. -/
theorem map_polyMul {p : BitVec 9} {f : Byte → Byte} (hf : RespectsShift p f) (a b : Byte) :
    f (polyMul p a b) = polyMul p (f a) b := by
  have hstep (acc : Byte) (t : Nat) : hornerStep p (f a) b (f acc) t = f (hornerStep p a b acc t) := by
    rw [hornerStep, hornerStep, hf.xor, hf.xtimes, apply_ite f, hf.zero]
  rw [polyMul_eq_foldl, polyMul_eq_foldl, ← List.foldl_hom f hstep, hf.zero]

theorem polyMul_xor_left (p : BitVec 9) (a b c : Byte) :
    polyMul p (a ^^^ b) c = polyMul p a c ^^^ polyMul p b c := by
  have hstep (acc acc' : Byte) (t : Nat) :
      hornerStep p a c acc t ^^^ hornerStep p b c acc' t = hornerStep p (a ^^^ b) c (acc ^^^ acc') t := by
    unfold hornerStep
    rw [xtimes_xor]
    cases c.getLsbD t <;> simp
    ac_rfl
  exact List.foldl_hom₂ _ _ _ _ _ 0 0 hstep

theorem polyMul_respectsShift (p : BitVec 9) (c : Byte) : RespectsShift p (polyMul p · c) :=
  ⟨fun a b => polyMul_xor_left p a b c, fun a => (map_polyMul (xtimes_respectsShift p) a c).symm⟩

theorem zero_polyMul (p : BitVec 9) (b : Byte) : polyMul p 0 b = 0 := (polyMul_respectsShift p b).zero

/-- The accumulator of `1 * b` after the bits from `t` up is `b` without its low `t` bits: nothing is reduced. -/
theorem hornerStep_one (p : BitVec 9) (b : Byte) (t : Nat) : hornerStep p 1 b (b >>> (t + 1)) t = b >>> t := by
  have hmsb : (b >>> (t + 1)).msb = false := by simp [BitVec.msb_ushiftRight]
  rw [hornerStep, xtimes_eq, hmsb]
  ext i hi
  have hadd (i : Nat) : t + 1 + i = t + (i + 1) := by omega
  cases i <;> cases hb : b.getLsbD t <;> simp [hb, hadd]

theorem one_polyMul (p : BitVec 9) (b : Byte) : polyMul p 1 b = b := by
  have hfold (t : Nat) : (List.range t).reverse.foldl (hornerStep p 1 b) (b >>> t) = b := by
    induction t with
    | zero => exact BitVec.ushiftRight_zero b
    | succ t ih => rw [List.range_succ, List.reverse_concat, List.foldl_cons, hornerStep_one, ih]
  have hstart : b >>> 8 = 0 := BitVec.ushiftRight_eq_zero (Nat.le_refl 8)
  rw [polyMul_eq_foldl, ← hstart, hfold]

theorem polyMul_right_comm (p : BitVec 9) (a b c : Byte) : polyMul p (polyMul p a b) c = polyMul p (polyMul p a c) b :=
  map_polyMul (polyMul_respectsShift p c) a b

theorem polyMul_comm (p : BitVec 9) (a b : Byte) : polyMul p a b = polyMul p b a := by
  simpa only [one_polyMul] using polyMul_right_comm p 1 a b

theorem polyMul_assoc (p : BitVec 9) (a b c : Byte) : polyMul p (polyMul p a b) c = polyMul p a (polyMul p b c) := by
  rw [polyMul_comm p a b, polyMul_right_comm, polyMul_comm p _ a]

theorem polyMul_xor_right (p : BitVec 9) (a b c : Byte) :
    polyMul p a (b ^^^ c) = polyMul p a b ^^^ polyMul p a c := by
  simp only [polyMul_comm p a, polyMul_xor_left]

/-! ### The powers of `α` -/

/-- `α^i` modulo `p`. -/
def power (p : BitVec 9) (α : Byte) (i : Nat) : Byte := (polyMul p · α)^[i] 1

theorem power_zero (p : BitVec 9) (α : Byte) : power p α 0 = 1 := rfl

theorem power_succ (p : BitVec 9) (α : Byte) (i : Nat) : power p α (i + 1) = polyMul p (power p α i) α :=
  Function.iterate_succ_apply' ..

theorem power_one (p : BitVec 9) (α : Byte) : power p α 1 = α := one_polyMul p α

theorem polyMul_power (p : BitVec 9) (α : Byte) (i j : Nat) :
    polyMul p (power p α i) (power p α j) = power p α (i + j) := by
  induction j with
  | zero => exact (polyMul_comm ..).trans (one_polyMul ..)
  | succ j ih => rw [power_succ, ← polyMul_assoc, ih, ← power_succ, Nat.add_assoc]

theorem powersFrom_eq_iterate (p : BitVec 9) (α : Byte) (k : Nat) (v : Byte) :
    powersFrom p α k v = List.iterate (polyMul p · α) v k := by
  induction k generalizing v with
  | zero => rfl
  | succ k ih => exact congrArg (v :: ·) (ih _)

theorem powers_eq_iterate (p : BitVec 9) (α : Byte) : powers p α = List.iterate (polyMul p · α) 1 255 :=
  powersFrom_eq_iterate ..

/-! ### An element whose 255 powers are different and not 0 -/

section
variable {p : BitVec 9} {α : Byte}

theorem getElem?_powers {i : Nat} (hi : i < 255) : (powers p α)[i]? = some (power p α i) := by
  rw [powers_eq_iterate, List.getElem?_iterate _ _ _ _ hi]
  rfl

variable (hα : allNonzeroOnce (powers p α))
include hα

theorem power_injective {i j : Nat} (hi : i < 255) (hj : j < 255) (h : power p α i = power p α j) : i = j :=
  (List.getElem?_inj (hα.1 ▸ hi) hα.2.1).1 (by rw [getElem?_powers hi, getElem?_powers hj, h])

theorem power_ne_zero {i : Nat} (hi : i < 255) : power p α i ≠ 0 := fun h =>
  hα.2.2 (h ▸ List.mem_of_getElem? (getElem?_powers hi))

theorem alpha_ne_zero : α ≠ 0 := power_one p α ▸ power_ne_zero hα (by decide)

theorem alpha_ne_one : α ≠ 1 := fun h =>
  absurd (power_injective hα (i := 1) (j := 0) (by decide) (by decide) ((power_one p α).trans h)) (by decide)

/-! The 255 powers are then all the bytes but 0, which the table `LOG` shows (R21). -/

variable (hall : ∀ e, e ≠ 0 → ∃ i < 255, power p α i = e)
include hall

/-- `α` is a unit: `1 + α` is `α^(m+1)` for some `m`, so `(1 + α^m) * α = 1`. -/
theorem exists_polyMul_alpha_eq_one : ∃ u, polyMul p u α = 1 := by
  obtain ⟨m, -, hm⟩ := hall (1 ^^^ α) fun h => alpha_ne_one hα (BitVec.xor_eq_zero_iff.1 h).symm
  cases m with
  | zero => exact absurd (by simpa [power_zero] using hm.symm) (alpha_ne_zero hα)
  | succ m =>
    refine ⟨1 ^^^ power p α m, ?_⟩
    rw [polyMul_xor_left, one_polyMul, ← power_succ, hm, BitVec.xor_comm 1, ← BitVec.xor_assoc, BitVec.xor_self,
      BitVec.zero_xor]

theorem polyMul_alpha_injective : Function.Injective (polyMul p · α) := by
  obtain ⟨u, hu⟩ := exists_polyMul_alpha_eq_one hα hall
  refine Function.LeftInverse.injective (g := (polyMul p · u)) fun v => ?_
  show polyMul p (polyMul p v α) u = v
  rw [polyMul_assoc, polyMul_comm p α, hu, polyMul_comm, one_polyMul]

/-- `α^255 = 1`: it is not 0, so it is an earlier power, and cancelling makes that `α^0`. -/
theorem power_255 : power p α 255 = 1 := by
  have hinj := polyMul_alpha_injective hα hall
  have hne : power p α 255 ≠ 0 := by
    rw [power_succ, ← zero_polyMul p α]
    exact hinj.ne (power_ne_zero hα (by decide))
  obtain ⟨k, hk, hpk⟩ := hall _ hne
  have hback : power p α (255 - k) = 1 := Function.iterate_cancel hinj hpk.symm
  cases k with
  | zero => exact hpk.symm
  | succ k => have := power_injective hα (by omega) (by decide) (hback.trans (power_zero p α).symm); omega

theorem power_mod (i : Nat) : power p α (i % 255) = power p α i :=
  Function.IsPeriodicPt.iterate_mod_apply (power_255 hα hall) i

end

/-! ### The tables of a legal `FIELD` -/

section
variable {F : FieldTables} (hF : FieldLegal F)
include hF

theorem FieldLegal.getElem?_logOf {e : Byte} (he : e ≠ 0) : F.alog[logOf F e]? = some e := hF.alogOfLog e he

theorem FieldLegal.logOf_lt {e : Byte} (he : e ≠ 0) : logOf F e < 255 := by
  obtain ⟨h, -⟩ := List.getElem?_eq_some_iff.1 (hF.getElem?_logOf he)
  exact hF.alogOnce.1 ▸ h

theorem FieldLegal.alogOf_logOf {e : Byte} (he : e ≠ 0) : alogOf F (logOf F e) = e := by
  rw [alogOf, List.getD_eq_getElem?_getD, hF.getElem?_logOf he, Option.getD_some]

/-- The tables multiply as polynomials modulo some `p`, and `ALOG` holds the powers of an `α` of order 255. -/
theorem FieldLegal.exists_polyMul : ∃ p α, (∀ a b, gfmul F a b = polyMul p a b) ∧
    (∀ i < 255, alogOf F i = power p α i ∧ power p α i ≠ 0) ∧ ∀ i, power p α (i % 255) = power p α i := by
  obtain ⟨p, α, -, halog⟩ := hF.powersOfAlpha
  have hα : allNonzeroOnce (powers p α) := halog ▸ hF.alogOnce
  have hpow (i : Nat) (hi : i < 255) : alogOf F i = power p α i := by
    rw [alogOf, halog, List.getD_eq_getElem?_getD, getElem?_powers hi, Option.getD_some]
  have hlog {e : Byte} (he : e ≠ 0) : power p α (logOf F e) = e := by
    rw [← hpow _ (hF.logOf_lt he), hF.alogOf_logOf he]
  have hmod := power_mod hα fun e he => ⟨logOf F e, hF.logOf_lt he, hlog he⟩
  refine ⟨p, α, fun a b => ?_, fun i hi => ⟨hpow i hi, power_ne_zero hα hi⟩, hmod⟩
  unfold gfmul
  split
  · next h =>
    rcases h with rfl | rfl
    · exact (zero_polyMul p b).symm
    · rw [polyMul_comm, zero_polyMul]
  · next h =>
    obtain ⟨ha, hb⟩ := not_or.1 h
    rw [groupOrder, hpow _ (Nat.mod_lt _ (by decide)), hmod, ← polyMul_power, hlog ha, hlog hb]

/-! ### The laws -/

theorem FieldLegal.gfmul_comm (a b : Byte) : gfmul F a b = gfmul F b a := by
  obtain ⟨p, -, hmul, -⟩ := hF.exists_polyMul
  rw [hmul, hmul, polyMul_comm]

theorem FieldLegal.one_gfmul (a : Byte) : gfmul F 1 a = a := by
  obtain ⟨p, -, hmul, -⟩ := hF.exists_polyMul
  rw [hmul, one_polyMul]

theorem FieldLegal.gfmul_assoc (a b c : Byte) : gfmul F (gfmul F a b) c = gfmul F a (gfmul F b c) := by
  obtain ⟨p, -, hmul, -⟩ := hF.exists_polyMul
  simp only [hmul, polyMul_assoc]

theorem FieldLegal.gfmul_xor (a b c : Byte) : gfmul F a (b ^^^ c) = gfmul F a b ^^^ gfmul F a c := by
  obtain ⟨p, -, hmul, -⟩ := hF.exists_polyMul
  simp only [hmul, polyMul_xor_right]

theorem FieldLegal.alogOf_ne_zero {i : Nat} (hi : i < 255) : alogOf F i ≠ 0 := by
  obtain ⟨p, α, -, hpow, -⟩ := hF.exists_polyMul
  exact (hpow i hi).1 ▸ (hpow i hi).2

theorem FieldLegal.alogOf_zero : alogOf F 0 = 1 := by
  obtain ⟨p, α, -, hpow, -⟩ := hF.exists_polyMul
  exact (hpow 0 (by decide)).1

/-- The zero short-circuit answers 0, and `ALOG` holds no 0. -/
theorem FieldLegal.gfmul_eq_zero_iff (a b : Byte) : gfmul F a b = 0 ↔ a = 0 ∨ b = 0 := by
  unfold gfmul
  split
  · next h => exact iff_of_true rfl h
  · next h => exact iff_of_false (hF.alogOf_ne_zero (Nat.mod_lt _ (by decide))) h

theorem FieldLegal.gfmul_alogOf {i j : Nat} (hi : i < 255) (hj : j < 255) :
    gfmul F (alogOf F i) (alogOf F j) = alogOf F ((i + j) % 255) := by
  obtain ⟨p, α, hmul, hpow, hmod⟩ := hF.exists_polyMul
  rw [hmul, (hpow i hi).1, (hpow j hj).1, (hpow _ (Nat.mod_lt _ (by decide))).1, hmod, polyMul_power]

theorem FieldLegal.gfmul_inverse {a : Byte} (ha : a ≠ 0) : gfmul F a (alogOf F ((255 - logOf F a) % 255)) = 1 := by
  have hlt := hF.logOf_lt ha
  have hsum : (logOf F a + (255 - logOf F a) % 255) % 255 = 0 := by omega
  have h := hF.gfmul_alogOf hlt (Nat.mod_lt (255 - logOf F a) (by decide))
  rwa [hF.alogOf_logOf ha, hsum, hF.alogOf_zero] at h

/-- The inverse is the only one: `b = (a' * a) * b = a' * (a * b)`. -/
theorem FieldLegal.gfmul_eq_one_iff {a : Byte} (ha : a ≠ 0) (b : Byte) :
    gfmul F a b = 1 ↔ b = alogOf F ((255 - logOf F a) % 255) := by
  constructor
  · intro h
    have hinv := hF.gfmul_inverse ha
    rw [hF.gfmul_comm] at hinv
    rw [← hF.one_gfmul b, ← hinv, hF.gfmul_assoc, h, hF.gfmul_comm, hF.one_gfmul]
  · rintro rfl
    exact hF.gfmul_inverse ha

end

/-- Settles O13: the laws of the product of polynomials and of the powers of `α`, read through the tables. -/
theorem multiplierIsAField : Obligations.MultiplierIsAField := fun _ hF =>
  ⟨hF.gfmul_comm, hF.gfmul_eq_zero_iff, fun a => (hF.gfmul_comm a 1).trans (hF.one_gfmul a), hF.gfmul_assoc,
    hF.gfmul_xor, fun _ ha => hF.gfmul_eq_one_iff ha, fun _ hi _ hj => hF.gfmul_alogOf hi hj⟩

end Sys2Proof.Machine
end

section
/-! PROOFS. The response words and the endings as the statements write them (spec/30_encoding.md R97), then the steps
that run no command: waiting, reset and the answer while `FAULT` is set (spec/70_reset_and_hazards.md R250, R251,
spec/60_exceptions.md R227). -/

namespace Sys2Proof.Machine

open Sys2Proof.Config Sys2Proof.Claims

/-! ### The words and endings of the statements -/

theorem okWord_eq_okResponse (d : Len) : okWord d = okResponse d := rfl

theorem errorWord_eq_unsupportedResponse (n : Len) :
    errorWord (.unsupportedRedundancyLength n) = unsupportedResponse n := by
  have htop : (1#2 ++ (2#16).setWidth 6 ++ 0#8 : BitVec 16) = 0x4200#16 := by decide
  exact congrArg (· ++ n) htop

theorem faultWord_eq_faultResponse (c : BitVec 3) : faultWord c = faultResponse c := by
  revert c
  decide

theorem answerFault_eq_answered (s : State) : answerFault s = answered (faultResponse s.fcause) s := by
  rw [answerFault_eq, faultWord_eq_faultResponse, answered]

theorem takeFault_eq_faulted (c : FaultCause) (s : State) : takeFault c s = faulted c.code s := by
  rw [takeFault_eq, faultWord_eq_faultResponse, faulted]

theorem raiseError_eq_unsupported (n : Len) (s : State) :
    raiseError (.unsupportedRedundancyLength n) s = unsupported n s := by
  rw [raiseError_eq, errorWord_eq_unsupportedResponse, unsupported]
  rfl

/-! ### Waiting -/

theorem step_of_noInput {s : State} (h : s.inputs = []) : step s = .next s := by
  simp only [step, h, waitForHost]

/-- Settles O9: with no input a step is `waitForHost`. -/
theorem waitsForHost : Obligations.WaitsForHost := fun _ h => step_of_noInput h

/-! ### Reset -/

theorem step_of_reset {s : State} {rest : List HostInput} (h : s.inputs = .reset :: rest) :
    step s = .next (resetEvent Rom.defaults (s.consume rest)) := by
  simp only [step, h]

theorem resetFor_atResetValues (P : Params) : (State.resetFor P).AtResetValues P where
  descriptor := ⟨rfl, rfl, rfl, rfl, rfl⟩
  blkdata := ⟨List.length_replicate, fun _ hv => List.eq_of_mem_replicate hv⟩
  parameters := ⟨rfl, rfl, rfl, rfl, rfl⟩
  buffer := ⟨rfl, rfl⟩
  lfsr := List.length_replicate
  results := ⟨rfl, rfl, rfl⟩
  status := ⟨rfl, rfl, rfl⟩
  faultState := ⟨rfl, rfl⟩

theorem resetEvent_atResetValues (P : Params) (s : State) : (resetEvent P s).AtResetValues P :=
  { resetFor_atResetValues P with }

/-- The second check of R182: no blocks. -/
theorem symbolEcc_of_noBlocks {P : Params} {d : Desc} {w : Work} (hl : w.buf.length = d.dcap.toNat) (hN : d.nblk = 0) :
    symbolEcc P d w = .fault .operandRange := by
  simp [symbolEcc, hl, hN]

/-- The first check of R165: no entry of the length. -/
theorem blockEcc_of_noEntry {P : Params} {p : BlockParams} {w : Work} (h : p.eccLen.toNat ∉ genLen) :
    blockEcc P p w = .err (.unsupportedRedundancyLength p.eccLen) :=
  if_pos ((findGenerator_eq_none_iff _).2 h)

theorem exec_encode_atResetValues {P : Params} {s : State} (h : s.AtResetValues P) :
    exec .encode s = .next (faulted 5 s) := by
  obtain ⟨hdcap, -, hnblk, -, -⟩ := h.descriptor
  have hl : s.work.buf.length = s.desc.dcap.toNat := by
    rw [hdcap, State.work, h.buffer.1]
    rfl
  rw [exec_encode, encodeCommand, unlessFaulted_of_clear h.faultState.1, symbolEcc_of_noBlocks hl hnblk,
    finishWork_fault, takeFault_eq_faulted]
  rfl

theorem exec_eccblk_atResetValues {P : Params} {s : State} (h : s.AtResetValues P) :
    exec .eccblk s = .next (unsupported 0 s) := by
  obtain ⟨-, -, -, heccLen, -⟩ := h.parameters
  have hno : s.param.eccLen.toNat ∉ genLen := by rw [heccLen]; decide
  rw [exec_eccblk, eccblkCommand, unlessFaulted_of_clear h.faultState.1, blockEcc_of_noEntry hno, finishWork_err,
    raiseError_eq_unsupported, heccLen]

/-- Settles O8: the reset event gives the reset values from every state, and at those values the two commands meet the
check named for each. -/
theorem resetValues : Obligations.ResetValues :=
  ⟨resetFor_atResetValues _, fun _ _ h => ⟨_, step_of_reset h, resetEvent_atResetValues _ _, rfl, rfl⟩,
    fun _ h => ⟨exec_encode_atResetValues h, exec_eccblk_atResetValues h⟩⟩

/-! ### While `FAULT` is set -/

theorem runWord_of_fault (w : Word) {s : State} (h : s.fault = true) :
    runWord w s = .next (answered (faultResponse s.fcause) s) := by
  rw [runWord_eq_commandWord, ← answerFault_eq_answered]
  unfold commandWord
  cases decode w with
  | ok i => exact congrArg _ (command_of_fault _ i h)
  | error _ => exact congrArg _ (unlessFaulted_of_fault h _)

/-- Settles O48: a presented word is answered and nothing else, and waiting changes nothing. -/
theorem faultIsSticky : Obligations.FaultIsSticky := by
  refine ⟨fun w s h => runWord_of_fault w h, fun s t h hreset hst => ?_⟩
  unfold step at hst
  cases hin : s.inputs with
  | nil =>
    simp only [hin] at hst
    cases hst
    exact ⟨h, rfl⟩
  | cons input rest =>
    cases input with
    | reset => exact absurd (congrArg List.head? hin) hreset
    | command w =>
      simp only [hin, runWord_of_fault w (s := s.consume rest) h] at hst
      cases hst
      exact ⟨h, rfl⟩

end Sys2Proof.Machine
end

section
/-! PROOFS. The matrix of spec/10_state.md R37: for each piece of state, the commands that write it; every other command
leaves it as it was. -/

namespace Sys2Proof.Machine

open Sys2Proof.Config Sys2Proof.Claims

section
variable {P : Params} {s t : State} {i : Instr}

/-- The last response decides whether a command ended OK. -/
theorem endedOk_iff {r : Word} {rest : List Word} (h : t.responses = r :: rest) :
    EndedOk t ↔ r.extractLsb' 30 2 = 0#2 := by
  constructor
  · rintro ⟨r', rest', h', htag⟩
    rw [h, List.cons.injEq] at h'
    rwa [h'.1]
  · exact fun htag => ⟨r, rest, h, htag⟩

theorem not_endedOk_takeFault (c : FaultCause) (s : State) : ¬EndedOk (takeFault c s) := by
  rw [endedOk_iff (takeFault_responses c s), faultWord_tag]
  decide

theorem endedOk_finishWork (w : Work) (s : State) : EndedOk (finishWork (.ok w) s) :=
  (endedOk_iff rfl).2 (okWord_tag _)

/-! ### The rows of the matrix -/

theorem CommandEnds.inputs_eq (h : CommandEnds P s i t) : t.inputs = s.inputs := by
  cases h with
  | wrreg => exact writeReg_inputs ..
  | _ => rfl

theorem CommandEnds.desc_param_eq (h : CommandEnds P s i t) (hi : ∀ r v, i ≠ .wrreg r v) :
    t.desc = s.desc ∧ t.param = s.param := by
  cases h with
  | wrreg => exact absurd rfl (hi _ _)
  | _ => exact ⟨rfl, rfl⟩

theorem CommandEnds.res_eq (h : CommandEnds P s i t) (hi : ∀ a b, i ≠ .gfmul a b) : t.res = s.res := by
  cases h with
  | gfmul => exact absurd rfl (hi _ _)
  | wrreg => exact writeReg_res ..
  | _ => rfl

theorem CommandEnds.selection_eq (h : CommandEnds P s i t) (hi : ∀ n, i ≠ .genfind n) :
    t.gsel = s.gsel ∧ t.glen = s.glen := by
  cases h with
  | genfind | genfindFails => exact absurd rfl (hi _)
  | wrreg => exact ⟨writeReg_gsel .., writeReg_glen ..⟩
  | _ => exact ⟨rfl, rfl⟩

theorem CommandEnds.status_eq (h : CommandEnds P s i t)
    (hi : (∀ n, i ≠ .genfind n) ∧ i ≠ .eccblk ∧ i ≠ .encode ∨ t.fault = true ∧ s.fault = false) :
    t.status = s.status ∧ t.errinfo0 = s.errinfo0 ∧ t.errinfo1 = s.errinfo1 := by
  cases h with
  | wrreg => exact ⟨writeReg_status .., writeReg_errinfo0 .., writeReg_errinfo1 ..⟩
  | genfind | genfindFails | eccblk | eccblkFails | encode | encodeMiscounts | encodeFails => simp at hi
  | _ => exact ⟨rfl, rfl, rfl⟩

theorem CommandEnds.lfsr_eq (h : CommandEnds P s i t) (he : i ≠ .eccblk) (hn : i ≠ .encode) : t.lfsr = s.lfsr := by
  cases h with
  | eccblk => exact absurd rfl he
  | encode => exact absurd rfl hn
  | wrreg => exact writeReg_lfsr ..
  | _ => rfl

/-- The commands that store to the buffer or change `BUFLEN` (R37). -/
def storesToBuffer : Instr → Bool
  | .eccblk | .encode | .bufclr | .bufpush _ => true
  | _ => false

theorem CommandEnds.buf_eq (h : CommandEnds P s i t) (hi : storesToBuffer i = false) : t.buf = s.buf := by
  cases h with
  | eccblk | encode | bufclr | bufpush => cases hi
  | wrreg => exact writeReg_buf ..
  | _ => rfl

/-- `FAULT` and `FCAUSE` change only when a command faults (R227). -/
theorem CommandEnds.fault_eq (h : CommandEnds P s i t) (hi : EndedOk t ∨ raisesNoFault i = true) :
    t.fault = s.fault ∧ t.fcause = s.fcause := by
  cases h with
  | faults _ _ hraises =>
    rcases hi with hok | hi
    · exact absurd hok (not_endedOk_takeFault _ _)
    · rw [hraises] at hi; cases hi
  | wrreg => exact ⟨writeReg_fault .., writeReg_fcause ..⟩
  | _ => exact ⟨rfl, rfl⟩

/-- No command clears `FAULT`. -/
theorem CommandEnds.clear_of_clear (h : CommandEnds P s i t) (ht : t.fault = false) : s.fault = false := by
  cases h with
  | faults => cases ht
  | wrreg => exact (writeReg_fault ..).symm.trans ht
  | _ => exact ht

/-- `WRREG` leaves every register but the one of its number as it was (R31). -/
theorem CommandEnds.readReg_eq {r r' : RegNum} {v : Len} {x : Reg} (h : CommandEnds P s (.wrreg r v) t) (hr : r' ≠ r)
    (hx : regOf P r' = some x) : t.readReg x = s.readReg x := by
  cases h with
  | answersFault => cases x <;> rfl
  | faults => exact readReg_takeFault ..
  | wrreg hy _ =>
    rw [readReg_respondOk]
    refine readReg_writeReg_other s v ?_ ?_ ?_
    · rintro rfl
      exact hr (regOf_injective hx hy)
    · rintro m rfl
      exact (regOf_eq_blkdata hy).1
    · rintro m rfl
      exact (regOf_eq_blkdata hx).1

end

/-! ### The bytes a stored buffer keeps -/

theorem read_push_other {m : Memory} {a : Nat} (h : a ≠ m.length) (v : Byte) : (m.push v).read a = m.read a := by
  rcases Nat.lt_or_gt_of_ne h with hlt | hgt
  · exact read_push_old hlt v
  · simp [Memory.read, Memory.push, hgt, hgt.le]

/-- A block computation of an ECC length of the catalog writes its ECC positions only (R162). -/
theorem read_runBlock_other {P : Params} (hG : GenLegal P.gen) {n : Nat} (hn : n ∈ genLen) {co cl eo st a : Nat}
    {w : Work} (h : ∀ k < n, a ≠ stridedIndex eo st k) : (runBlock P co cl eo n st w).buf.read a = w.buf.read a := by
  refine read_writeBack_other _ _ _ _ fun k hk => ?_
  rw [remainder_length, coefficients_length hG hn] at hk
  exact (h k hk).symm

/-- It writes nothing below its first ECC position. -/
theorem read_runBlock_below (P : Params) {co cl eo n st a : Nat} (w : Work) (h : a < eo) :
    (runBlock P co cl eo n st w).buf.read a = w.buf.read a :=
  read_writeBack_other _ _ _ _ fun k _ => by omega

theorem read_runBlocks_below (P : Params) {d : Desc} {a : Nat} (h : a < d.dcap.toNat) (order : List Nat) (w : Work) :
    (d.runBlocks P order w).buf.read a = w.buf.read a := by
  induction order generalizing w with
  | nil => rfl
  | cons b bs ih => exact (ih _).trans (read_runBlock_below P w (Nat.lt_add_right b h))

/-- `ENCODE` keeps the data codewords (R183). -/
theorem read_runSteps_below (P : Params) {d : Desc} {a : Nat} (h : a < d.dcap.toNat) (w : Work) :
    (d.runSteps P w).buf.read a = w.buf.read a := by
  unfold Desc.runSteps
  split
  · exact read_runBlock_below P w h
  · exact read_runBlocks_below P h _ w

theorem exec_bufclr_buf {s t : State} (h : exec .bufclr s = .next t) (hs : s.fault = false) : t.buf = [] := by
  rw [exec_bufclr, bufclrCommand, unlessFaulted_of_clear hs] at h
  cases h
  rfl

/-! ### The statements -/

/-- Settles O53: only the three commands end with a buffer of another length; a block computation keeps it. -/
theorem buflenChangesInThreeWays : Obligations.BuflenChangesInThreeWays := by
  intro i s t h
  cases exec_ends h with
  | bufclr => exact .inr (.inl ⟨rfl, rfl⟩)
  | bufpush => exact .inr (.inr (.inl ⟨⟨_, rfl⟩, push_length ..⟩))
  | encode hl ha =>
    have hlen : (s.desc.runSteps Rom.defaults (s.desc.grow s.work)).buf.length = s.desc.cwcnt.toNat :=
      (runSteps_buf_length ..).trans (growTo_length (hl ▸ ha.order))
    exact .inr (.inr (.inr ⟨rfl, hlen, endedOk_finishWork ..⟩))
  | eccblk => exact .inl (runBlock_buf_length ..)
  | wrreg => exact .inl (congrArg List.length (writeReg_buf ..))
  | _ => exact .inl rfl

/-- What an ERROR response says is what the status registers hold (R35, R97). -/
theorem raiseError_described (e : DocError) (s : State) :
    ∃ r, (raiseError e s).responses.head? = some r ∧
      (r.extractLsb' 30 2 = 1#2 ∧ (raiseError e s).status = (r.extractLsb' 24 6).setWidth 16 ∧
        (raiseError e s).errinfo0 = r.extractLsb' 0 16) := by
  have hkind : e.kind = (e.kind.setWidth 6).setWidth 16 := by cases e <;> rfl
  refine ⟨errorWord e, rfl, errorWord_tag e, ?_, ?_⟩
  · rw [errorWord, responseWord_code]
    exact hkind
  · rw [errorWord, responseWord_data]
    rfl

/-- Settles O54: of the endings that write the status registers each OK one clears them and each ERROR one answers what
it wrote. -/
theorem statusDescribesLastOfThree : Obligations.StatusDescribesLastOfThree := by
  intro i s t hs h
  have hends := exec_ends h
  refine ⟨fun hi ht => ?_, fun hi => hends.status_eq (hi.imp_right (⟨·, hs⟩))⟩
  cases hends with
  | answersFault hf => rw [hs] at hf; cases hf
  | faults => cases ht
  | genfind | eccblk | encode => exact ⟨_, rfl, .inl ⟨okWord_tag _, rfl, rfl, rfl⟩⟩
  | genfindFails | eccblkFails | encodeMiscounts | encodeFails =>
    obtain ⟨r, hr, hsays⟩ := raiseError_described _ _
    exact ⟨r, hr, .inr hsays⟩
  | _ => simp at hi

/-- Settles O55: the rows of the matrix for the commands that do not store. -/
theorem frameOfNonStoringCommands : Obligations.FrameOfNonStoringCommands := by
  intro i s t h hi
  have hends := exec_ends h
  have hstores : storesToBuffer i = false ∧ i ≠ .eccblk ∧ i ≠ .encode := by
    rcases hi with ⟨_, _, rfl⟩ | ⟨_, rfl⟩ | ⟨_, rfl⟩ | ⟨_, _, rfl⟩ | ⟨_, rfl⟩ | ⟨_, rfl⟩ <;> simp [storesToBuffer]
  obtain ⟨hstores, hne, hne'⟩ := hstores
  have hbuf := hends.buf_eq hstores
  refine ⟨fun a => by rw [hbuf], congrArg (fun m : Memory => lenOf m.length) hbuf, hends.lfsr_eq hne hne',
    hends.inputs_eq, hends.desc_param_eq, ?_, hends.res_eq, fun hg => ?_, fun hok => hends.fault_eq (hok.imp_right ?_)⟩
  · rintro r v rfl r' x hr hx
    exact hends.readReg_eq hr hx
  · obtain ⟨hgsel, hglen⟩ := hends.selection_eq hg
    exact ⟨hgsel, hglen, hends.status_eq (.inl ⟨hg, hne, hne'⟩)⟩
  · rintro ⟨n, rfl⟩
    rfl

/-- Settles O56: the rows of the matrix for the commands that store, and for each the bytes it keeps. -/
theorem frameOfStoringCommands : Obligations.FrameOfStoringCommands := by
  intro i s t h hi
  have hends := exec_ends h
  have hneither : (∀ r v, i ≠ .wrreg r v) ∧ (∀ a b, i ≠ .gfmul a b) ∧ ∀ n, i ≠ .genfind n := by
    rcases hi with rfl | rfl | rfl | ⟨_, rfl⟩ <;> simp
  obtain ⟨hw, hm, hg⟩ := hneither
  obtain ⟨hdesc, hparam⟩ := hends.desc_param_eq hw
  obtain ⟨hgsel, hglen⟩ := hends.selection_eq hg
  refine ⟨hdesc, hparam, hends.res_eq hm, hgsel, hglen, hends.inputs_eq, fun he hn => ?_, ?_, ?_, ?_, ?_,
    fun hok => hends.fault_eq (.inl hok)⟩
  · obtain ⟨hst, he0, he1⟩ := hends.status_eq (.inl ⟨hg, he, hn⟩)
    exact ⟨hst, he0, he1, hends.lfsr_eq he hn⟩
  · rintro rfl
    cases hends with
    | eccblk ha =>
      exact ⟨congrArg lenOf (runBlock_buf_length ..),
        fun a hpos => read_runBlock_other defaultGen_legal ha.length hpos⟩
    | _ => exact ⟨rfl, fun _ _ => rfl⟩
  · rintro rfl a hlt
    cases hends with
    | encode hl ha => exact (read_runSteps_below _ (hl ▸ hlt) _).trans (read_growTo_old hlt _)
    | _ => rfl
  · rintro ⟨v, rfl⟩ a hne
    cases hends with
    | bufpush => exact read_push_other hne v
    | _ => rfl
  · rintro rfl hs a
    rw [exec_bufclr_buf h hs]
    rfl

end Sys2Proof.Machine
end

section
/-! PROOFS. What does not influence what: `R` is read by nothing but the computation that has just set it to zero
(spec/10_state.md R27, R41), and a unit's result registers by no other unit (spec/70_reset_and_hazards.md R259). -/

namespace Sys2Proof.Machine

open Sys2Proof.Config Sys2Proof.Claims

/-! ### The computations on two register files -/

/-- What a computation leaves in the buffer, without what it leaves in `R`. -/
def Ending.buffer : Ending Work → Ending Memory
  | .ok w => .ok w.buf
  | .err e => .err e
  | .fault c => .fault c

@[simp] theorem buffer_ok (w : Work) : (Ending.ok w).buffer = .ok w.buf := rfl

section
variable {w w' : Work} (h : w.buf = w'.buf)
include h

theorem runBlock_buf_congr (P : Params) (co cl eo n st : Nat) :
    (runBlock P co cl eo n st w).buf = (runBlock P co cl eo n st w').buf :=
  congrArg (computeBlock P · co cl eo n st) h

theorem runBlocks_buf_congr (P : Params) (d : Desc) (order : List Nat) :
    (d.runBlocks P order w).buf = (d.runBlocks P order w').buf := by
  induction order generalizing w w' with
  | nil => exact h
  | cons b bs ih => exact ih (runBlock_buf_congr h P ..)

theorem runSteps_buf_congr (P : Params) (d : Desc) : (d.runSteps P w).buf = (d.runSteps P w').buf := by
  unfold Desc.runSteps
  split
  · exact runBlock_buf_congr h P ..
  · exact runBlocks_buf_congr h P d _

theorem blockEcc_buffer_congr (P : Params) (p : BlockParams) : (blockEcc P p w).buffer = (blockEcc P p w').buffer := by
  simp only [blockEcc, h, apply_ite Ending.buffer, buffer_ok, runBlock_buf_congr h]

theorem symbolEcc_buffer_congr (P : Params) (d : Desc) : (symbolEcc P d w).buffer = (symbolEcc P d w').buffer := by
  have hgrow : (d.grow w).buf = (d.grow w').buf := congrArg (Memory.growTo · d.cwcnt.toNat) h
  simp only [symbolEcc, h, apply_ite Ending.buffer, buffer_ok, runSteps_buf_congr hgrow]

end

/-! ### Two runs that differ in `R` only -/

/-- The two states differ in `R` only. -/
def AgreeButR (s t : State) : Prop := ∃ R, t = { s with lfsr := R }

theorem agreeButR_finishWork {e e' : Ending Work} (he : e.buffer = e'.buffer) {s t : State} (h : AgreeButR s t) :
    AgreeButR (finishWork e s) (finishWork e' t) := by
  obtain ⟨R, rfl⟩ := h
  cases e <;> cases e'
  case ok.ok w w' =>
    refine ⟨w'.lfsr, ?_⟩
    rw [finishWork_ok_eq, finishWork_ok_eq, Ending.ok.inj he]
  all_goals cases he <;> exact ⟨R, rfl⟩

theorem agreeButR_unlessFaulted {s t s' t' : State} (h : AgreeButR s t) (h' : AgreeButR s' t') :
    AgreeButR (unlessFaulted s s') (unlessFaulted t t') := by
  obtain ⟨R, rfl⟩ := h
  unfold unlessFaulted
  split
  · exact ⟨R, rfl⟩
  · exact h'

theorem agreeButR_ite {c : Prop} [Decidable c] {s t s' t' : State} (h : AgreeButR s t) (h' : AgreeButR s' t') :
    AgreeButR (if c then s else s') (if c then t else t') := by
  split
  · exact h
  · exact h'

theorem agreeButR_command (P : Params) (i : Instr) {s t : State} (h : AgreeButR s t) :
    AgreeButR (command P i s) (command P i t) := by
  have hR := h
  obtain ⟨R, rfl⟩ := h
  cases i <;> refine agreeButR_unlessFaulted hR ?_
  case eccblk =>
    exact agreeButR_finishWork (blockEcc_buffer_congr (w := s.work) (w' := ⟨s.buf, R⟩) rfl P s.param) hR
  case encode =>
    exact agreeButR_finishWork (symbolEcc_buffer_congr (w := s.work) (w' := ⟨s.buf, R⟩) rfl P s.desc) hR
  case gfmul | bufclr => exact ⟨R, rfl⟩
  case genfind n => cases findGenerator n.toNat <;> exact ⟨R, rfl⟩
  case genrd | bufpush => exact agreeButR_ite ⟨R, rfl⟩ ⟨R, rfl⟩
  case bufrd k => cases s.buf.read k.toNat <;> exact ⟨R, rfl⟩
  case rdreg r =>
    cases regOf P r with
    | none => exact ⟨R, rfl⟩
    | some x => exact ⟨R, by cases x <;> rfl⟩
  case wrreg r v =>
    cases regOf P r with
    | none => exact ⟨R, rfl⟩
    | some x => exact agreeButR_ite ⟨R, by cases x <;> rfl⟩ ⟨R, rfl⟩

theorem agreeButR_commandWord (P : Params) (w : Word) {s t : State} (h : AgreeButR s t) :
    AgreeButR (commandWord P w s) (commandWord P w t) := by
  unfold commandWord
  cases decode w with
  | ok i => exact agreeButR_command P i h
  | error _ =>
    refine agreeButR_unlessFaulted h ?_
    obtain ⟨R, rfl⟩ := h
    exact ⟨R, rfl⟩

theorem AgreeButR.inputs_eq {s t : State} (h : AgreeButR s t) : t.inputs = s.inputs := by
  obtain ⟨R, rfl⟩ := h
  rfl

theorem AgreeButR.consume {s t : State} (h : AgreeButR s t) (rest : List HostInput) :
    AgreeButR (s.consume rest) (t.consume rest) := by
  obtain ⟨R, rfl⟩ := h
  exact ⟨R, rfl⟩

theorem agreeButR_advance (P : Params) {s t : State} (h : AgreeButR s t) : AgreeButR (advance P s) (advance P t) := by
  unfold advance
  rw [h.inputs_eq]
  cases s.inputs with
  | nil => exact h
  | cons input rest =>
    cases input with
    | reset =>
      obtain ⟨R, rfl⟩ := h
      exact ⟨_, rfl⟩
    | command w => exact agreeButR_commandWord P w (h.consume rest)

/-- Settles O57: a step of two states that differ in `R` only gives two such states. -/
theorem hiddenRegisterIsUnobservable : Obligations.HiddenRegisterIsUnobservable := by
  intro s t R h
  obtain rfl : advance Rom.defaults s = t := by simpa [step_eq_advance] using h
  obtain ⟨R', hR'⟩ := agreeButR_advance Rom.defaults (s := s) ⟨R, rfl⟩
  exact ⟨R', by rw [step_eq_advance, hR']⟩

/-! ### The units -/

theorem exec_encode_of_clear {s : State} (h : s.fault = false) :
    exec .encode s = .next (finishWork (symbolEcc Rom.defaults s.desc s.work) s) := by
  rw [exec_encode, encodeCommand, unlessFaulted_of_clear h]

/-- Settles O58: the three commands leave all that `ENCODE` reads: the buffer, the descriptor and `FAULT`. -/
theorem unitsDoNotInterfere : Obligations.UnitsDoNotInterfere := by
  intro i s t u v hi hit ht hsu htv
  have hends := exec_ends hit
  have hs := hends.clear_of_clear ht
  obtain ⟨hstores, hw, he, hn⟩ :
      storesToBuffer i = false ∧ (∀ r v, i ≠ .wrreg r v) ∧ i ≠ .eccblk ∧ i ≠ .encode := by
    rcases hi with ⟨_, _, rfl⟩ | ⟨_, rfl⟩ | ⟨_, rfl⟩ <;> simp [storesToBuffer]
  have hwork : t.work = s.work := by rw [State.work, hends.buf_eq hstores, hends.lfsr_eq he hn, State.work]
  have hdesc := (hends.desc_param_eq hw).1
  have hbuf := hends.buf_eq hstores
  rw [exec_encode_of_clear hs] at hsu
  rw [exec_encode_of_clear ht, hwork, hdesc] at htv
  cases hsu
  cases htv
  cases symbolEcc Rom.defaults s.desc s.work with
  | ok w => exact ⟨rfl, rfl, hdesc, ht.trans hs.symm⟩
  | err e => exact ⟨hbuf, rfl, hdesc, ht.trans hs.symm⟩
  | fault c => exact ⟨hbuf, rfl, hdesc, rfl⟩

end Sys2Proof.Machine
end

section
/-! PROOFS. The register bank through the commands (spec/45_host_access.md R200, R201). -/

namespace Sys2Proof.Machine

open Sys2Proof.Config Sys2Proof.Claims

theorem exec_rdreg_of_regOf {r : RegNum} {x : Reg} (hx : regOf Rom.defaults r = some x) {s : State}
    (hs : s.fault = false) : exec (.rdreg r) s = .next (answered (okResponse (s.readReg x)) s) := by
  rw [exec_rdreg, rdregCommand, unlessFaulted_of_clear hs, hx]
  rfl

theorem okResponse_injective {a b : Len} (h : okResponse a = okResponse b) : a = b := by
  simpa [← okWord_eq_okResponse, okWord] using congrArg (BitVec.extractLsb' 0 16) h

/-- An OK answer to `RDREG` is the value of the register of that number. -/
theorem regOf_of_exec_rdreg {r : RegNum} {v : Len} {s : State} (hs : s.fault = false)
    (h : exec (.rdreg r) s = .next (answered (okResponse v) s)) :
    ∃ x, regOf Rom.defaults r = some x ∧ s.readReg x = v := by
  cases hx : regOf Rom.defaults r with
  | none =>
    rw [exec_rdreg, rdregCommand, unlessFaulted_of_clear hs, hx] at h
    injection h with h
    exact absurd (congrArg State.fault h) (by simp [answered, hs])
  | some x =>
    rw [exec_rdreg_of_regOf hx hs] at h
    injection h with h
    exact ⟨x, rfl, okResponse_injective (List.head_eq_of_cons_eq (congrArg State.responses h))⟩

/-- Settles O43: the write stores the value in its own register and, one number naming one register, in no other. -/
theorem writtenRegisterReadsBack : Obligations.WrittenRegisterReadsBack := by
  intro r r' v s t hinv hs h ht
  have hends := exec_ends h
  refine ⟨?_, fun hr x hx => ?_⟩
  · cases hends with
    | answersFault hf => rw [hs] at hf; cases hf
    | faults => cases ht
    | wrreg hx hw =>
      rw [exec_rdreg_of_regOf hx ht, readReg_respondOk, readReg_writeReg_same hinv.blkdata v hx hw]
  · obtain ⟨y, hy, rfl⟩ := regOf_of_exec_rdreg hs hx
    rw [exec_rdreg_of_regOf hy ht, hends.readReg_eq hr hy]

end Sys2Proof.Machine
end

section
/-! PROOFS. The step and the decoder (spec/20_memory.md R71, spec/30_encoding.md R96), and that a command ends OK or has
written nothing (spec/20_memory.md R69). -/

namespace Sys2Proof.Machine

open Sys2Proof.Config Sys2Proof.Claims

/-! ### The next presented word -/

theorem runWord_of_decode {w : Word} {i : Instr} (h : decode w = .ok i) (s : State) : runWord w s = exec i s := by
  rw [runWord, h]

theorem step_of_command {s : State} {w : Word} {rest : List HostInput} (h : s.inputs = .command w :: rest) :
    step s = runWord w (s.consume rest) := by
  rw [step, h]

/-- A presented word is the very next command, whatever the host had planned. -/
theorem step_present (w : Word) (s : State) : step (s.present w) = runWord w s :=
  step_of_command (present_inputs w s)

theorem withFetchWord_toNat (s : State) (w : Word) : s.withFetchWord 32 w.toNat = s.present w := by
  rw [State.withFetchWord, Nat.mod_eq_of_lt w.isLt, BitVec.ofNat_toNat, BitVec.setWidth_eq]

/-- The decoder reads back the fields that each format packs (R91, R93); the opcode selects the row. -/
theorem decode_encode (i : Instr) : decode (encode i) = .ok i := by
  cases i <;> simp [encode, decode, accept, reservedClear]

/-- Settles O6: taking the word off the list is `consume`, and the decoder reads back an encoded command. -/
theorem stepRunsDecodedCommand : Obligations.StepRunsDecodedCommand := by
  refine ⟨fun s w rest i hin hdec => ?_, fun s i => ?_⟩
  · rw [step_of_command hin, runWord_of_decode hdec, State.consume]
  · rw [withFetchWord_toNat, step_present, runWord_of_decode (decode_encode i)]

/-! ### No partial output -/

theorem endedOk_respondOk (d : Len) (s : State) : EndedOk (respondOk d s) :=
  (endedOk_iff (respondOk_responses d s)).2 (okWord_tag d)

/-- Settles O51: the endings that answer FAULT or ERROR write nothing that is listed, and all others answer OK. -/
theorem noPartialOutput : Obligations.NoPartialOutput := by
  intro i s t h
  cases exec_ends h with
  | answersFault | faults | genfindFails | eccblkFails | encodeMiscounts | encodeFails =>
    exact .inr ⟨rfl, rfl, rfl, rfl, rfl⟩
  | eccblk | encode => exact .inl (endedOk_finishWork ..)
  | _ => exact .inl (endedOk_respondOk ..)

end Sys2Proof.Machine
end

section
/-! PROOFS. The positions of interleaved blocks (spec/20_memory.md R62): which index belongs to which block, and the
tiling premises of spec/44_symbol_encode.md R192. -/

namespace Sys2Proof.Machine

open Sys2Proof.Config Sys2Proof.Claims

section
variable {N : Nat} {a b i : Nat}

/-- Element `i` of block `b` is at index `a` exactly when `b` and `i` are the remainder and the quotient of `a`. -/
theorem eq_interleaved_iff (hN : 0 < N) : b < N ∧ a = b + i * N ↔ b = a % N ∧ i = a / N := by
  have h := Nat.div_mod_unique (a := a) (c := b) (d := i) hN
  rw [Nat.mul_comm N i] at h
  omega

/-- No index belongs to two blocks. -/
theorem block_eq_of_interleaved_eq {b' i' : Nat} (hb : b < N) (hb' : b' < N) (h : b + i * N = b' + i' * N) :
    b = b' := by
  have hN : 0 < N := Nat.zero_lt_of_lt hb
  rw [((eq_interleaved_iff hN).1 ⟨hb, rfl⟩).1, h]
  exact (((eq_interleaved_iff hN).1 ⟨hb', rfl⟩).1).symm

/-- Where every index `a` is within its block's length, it is the position of exactly one block and element. -/
theorem existsUnique_interleaved {len : Nat → Nat} (hN : 0 < N) (hlen : a / N < len (a % N)) :
    ∃! p : Nat × Nat, p.1 < N ∧ p.2 < len p.1 ∧ a = p.1 + p.2 * N := by
  obtain ⟨hb, ha⟩ := (eq_interleaved_iff hN).2 ⟨rfl, rfl⟩
  refine ⟨(a % N, a / N), ⟨hb, hlen, ha⟩, ?_⟩
  rintro ⟨b, i⟩ ⟨hb, -, ha⟩
  obtain ⟨rfl, rfl⟩ := (eq_interleaved_iff hN).1 ⟨hb, ha⟩
  rfl

/-- The indices below `D` that are congruent to `b` modulo `N` are `D / N` rounded, up when `b` is below the rest. -/
theorem length_filter_mod (hb : b < N) (D : Nat) :
    ((List.range D).filter fun a => a % N = b).length = (D + (N - 1 - b)) / N := by
  have hN : 0 < N := Nat.zero_lt_of_lt hb
  have hcount := Nat.count_modEq_card D hN b
  simp only [Nat.count, List.countP_eq_length_filter, Nat.ModEq, Nat.mod_eq_of_lt hb] at hcount
  have hround : N ≤ D % N + (N - 1 - b) ↔ b < D % N := by omega
  rw [hcount, Nat.add_div hN, Nat.div_eq_of_lt (show N - 1 - b < N by omega),
    Nat.mod_eq_of_lt (show N - 1 - b < N by omega)]
  simp only [hround, Nat.add_zero]

/-- So `b` has an element `i` among them exactly when its position is below `D`. -/
theorem lt_length_filter_mod_iff (hb : b < N) (D : Nat) :
    i < ((List.range D).filter fun a => a % N = b).length ↔ b + i * N < D := by
  rw [length_filter_mod hb, ← Nat.succ_le_iff, Nat.le_div_iff_mul_le (Nat.zero_lt_of_lt hb), Nat.succ_mul]
  omega

end

/-! ### The tiling premises -/

section
variable {d : Desc} (h : d.TilesInterleaved)
include h

theorem Desc.TilesInterleaved.lt_blockData_iff {b i : Nat} (hb : b < d.nblk.toNat) :
    i < d.blockData (b + 1) ↔ b + i * d.nblk.toNat < d.dcap.toNat := by
  obtain ⟨-, -, hdata⟩ := h
  rw [hdata b hb, lt_length_filter_mod_iff hb]

theorem Desc.TilesInterleaved.dataBelowEcc : DataBelowEcc d := fun _ hb _ hi => (h.lt_blockData_iff hb).1 hi

theorem Desc.TilesInterleaved.existsUnique_data {a : Nat} (ha : a < d.dcap.toNat) :
    ∃! p : Nat × Nat, p.1 < d.nblk.toNat ∧ p.2 < d.blockData (p.1 + 1) ∧ a = p.1 + p.2 * d.nblk.toNat := by
  have hN : 0 < d.nblk.toNat := Nat.zero_lt_of_lt h.1
  have hround : a % d.nblk.toNat + a / d.nblk.toNat * d.nblk.toNat < d.dcap.toNat := by rwa [Nat.mod_add_div']
  exact existsUnique_interleaved (len := fun b => d.blockData (b + 1)) hN
    ((h.lt_blockData_iff (Nat.mod_lt a hN)).2 hround)

theorem Desc.TilesInterleaved.existsUnique_ecc {a : Nat} (ha : d.dcap.toNat ≤ a) (hlt : a < d.cwcnt.toNat) :
    ∃! p : Nat × Nat, p.1 < d.nblk.toNat ∧ p.2 < d.blkerr.toNat ∧ a = d.dcap.toNat + p.1 + p.2 * d.nblk.toNat := by
  obtain ⟨hN, hsize, -⟩ := h
  obtain ⟨k, rfl⟩ := Nat.exists_eq_add_of_le ha
  have hk : k / d.nblk.toNat < d.blkerr.toNat := Nat.div_lt_of_lt_mul (by omega)
  simpa only [Nat.add_assoc, Nat.add_left_cancel_iff] using
    existsUnique_interleaved (len := fun _ => d.blkerr.toNat) (Nat.zero_lt_of_lt hN) hk

end

/-- Settles O38: the premises make both regions full rounds of the blocks, the last round of the data cut at `DCAP`. -/
theorem tilingCoversTheBuffer : Obligations.TilingCoversTheBuffer := fun _ h =>
  ⟨fun _ ha => h.existsUnique_data ha, fun _ ha hlt => h.existsUnique_ecc ha hlt, h.dataBelowEcc⟩

end Sys2Proof.Machine
end

section
/-! PROOFS. What the interleaved block computations leave in the buffer (spec/44_symbol_encode.md R185, R186), read
index by index: where no data position reaches into the ECC region the order of the blocks does not show
(spec/20_memory.md R73). -/

namespace Sys2Proof.Machine

open Sys2Proof.Config Sys2Proof.Claims

/-! ### One block -/

/-- The entry found for a catalog length is an entry of the catalog. -/
theorem coefficients_mem {P : Params} (hG : GenLegal P.gen) {n : Nat} (hn : n ∈ genLen) :
    coefficients P n ∈ P.gen := by
  obtain ⟨j, hj⟩ : ∃ j, findGenerator n = some j :=
    Option.ne_none_iff_exists'.1 (mt (findGenerator_eq_none_iff n).1 (not_not.2 hn))
  have hlt : j < P.gen.length := by
    rw [← List.length_map List.length, hG]
    exact (findGenerator_some hj).1
  simp only [coefficients, hj, entry, List.getD_eq_getElem _ _ hlt, List.getElem_mem]

/-- Two buffers of one length that agree at every index are equal. -/
theorem memory_ext {m m' : Memory} (h : ∀ a, m.read a = m'.read a) : m = m' := List.ext_getElem? h

/-- ECC position `k` of a block receives its error codeword `k`, lowest index first (R166). -/
theorem read_runBlock_ecc {P : Params} (hG : GenLegal P.gen) {n : Nat} (hn : n ∈ genLen) {co cl eo st k : Nat}
    {w : Work} (hst : 0 < st) (hk : k < n) (hlt : stridedIndex eo st k < w.buf.length) :
    (runBlock P co cl eo n st w).buf.read (stridedIndex eo st k) =
      (eccOf P.field (coefficients P n) (blockElements w.buf co cl st))[k]? := by
  have hk' : k < (remainder P.field (coefficients P n) (blockElements w.buf co cl st)).length := by
    rwa [remainder_length, coefficients_length hG hn]
  rw [eccOf, List.getElem?_reverse hk', List.getElem?_eq_getElem (by omega), ← List.getD_eq_getElem _ 0]
  exact read_writeBack_same hst hk' hlt

/-! ### All blocks -/

theorem blockElements_eq_blockBytes (d : Desc) (m : Memory) (b : Nat) :
    blockElements m b (d.blockData (b + 1)) d.nblk.toNat = blockBytes d m b := rfl

/-- Index `a` is an ECC position of one of the blocks. -/
def Desc.IsEccPosition (d : Desc) (blocks : List Nat) (a : Nat) : Prop :=
  ∃ b ∈ blocks, ∃ i < d.blkerr.toNat, a = stridedIndex (d.dcap.toNat + b) d.nblk.toNat i

section
variable {P : Params} {d : Desc} (hG : GenLegal P.gen) (ha : d.Accepted P) (hN : 1 < d.nblk.toNat)

include ha hN in
theorem Desc.Accepted.blkerr_mem : d.blkerr.toNat ∈ genLen := by
  have hne : d.nblk ≠ 1 := by rw [ne_eq, nblk_eq_one_iff]; omega
  simpa only [Desc.eccLength, if_neg hne] using ha.length

include ha hN in
/-- Check 7 of R182 for every ECC position. -/
theorem Desc.Accepted.eccPosition_lt {b i : Nat} (hb : b < d.nblk.toNat) (hi : i < d.blkerr.toNat) :
    stridedIndex (d.dcap.toNat + b) d.nblk.toNat i < d.cwcnt.toNat :=
  position_lt (ha.interleaved hN b hb).2 hi

include hG ha hN in
/-- The blocks write their ECC positions only. -/
theorem read_runBlocks_other {a : Nat} (order : List Nat) (h : ¬d.IsEccPosition order a) (w : Work) :
    (d.runBlocks P order w).buf.read a = w.buf.read a := by
  induction order generalizing w with
  | nil => rfl
  | cons b bs ih =>
    have hbs : ¬d.IsEccPosition bs a := fun ⟨b', hb', hpos⟩ => h ⟨b', List.mem_cons_of_mem _ hb', hpos⟩
    exact (ih hbs _).trans
      (read_runBlock_other hG (ha.blkerr_mem hN) fun i hi hpos => h ⟨b, List.mem_cons_self, i, hi, hpos⟩)

/-- The data of a block depends on the bytes below `DCAP` only. -/
theorem blockBytes_congr (hbelow : DataBelowEcc d) {m m' : Memory} (hm : ∀ a < d.dcap.toNat, m.read a = m'.read a)
    {b : Nat} (hb : b < d.nblk.toNat) : blockBytes d m b = blockBytes d m' b :=
  List.map_congr_left fun i hi =>
    congrArg (·.getD 0) (hm _ (hbelow b hb i (List.mem_range.1 hi)))

include hG ha hN in
/-- Error codeword `i` of block `b` lands at `D + b + i·N`, whatever the order of the blocks (R186): no other block
writes there, and none writes to the data of `b`. -/
theorem read_runBlocks_ecc (hbelow : DataBelowEcc d) {order : List Nat} (hnodup : order.Nodup)
    (horder : ∀ b ∈ order, b < d.nblk.toNat) {b i : Nat} (hb : b ∈ order) (hi : i < d.blkerr.toNat) {w : Work}
    (hw : w.buf.length = d.cwcnt.toNat) :
    (d.runBlocks P order w).buf.read (stridedIndex (d.dcap.toNat + b) d.nblk.toNat i) =
      (eccOf P.field (coefficients P d.blkerr.toNat) (blockBytes d w.buf b))[i]? := by
  induction order generalizing w with
  | nil => exact absurd hb List.not_mem_nil
  | cons c cs ih =>
    obtain ⟨hc, hcs⟩ := List.nodup_cons.1 hnodup
    have hbN := horder b hb
    rcases List.mem_cons.1 hb with rfl | hb
    · have hother : ¬d.IsEccPosition cs (stridedIndex (d.dcap.toNat + b) d.nblk.toNat i) := by
        rintro ⟨b', hb', i', -, hpos⟩
        have hb'N := horder b' (List.mem_cons_of_mem _ hb')
        simp only [stridedIndex, Nat.add_assoc, Nat.add_left_cancel_iff] at hpos
        exact hc (block_eq_of_interleaved_eq hbN hb'N hpos ▸ hb')
      exact (read_runBlocks_other hG ha hN cs hother _).trans
        (read_runBlock_ecc hG (ha.blkerr_mem hN) (Nat.zero_lt_of_lt hN) hi (hw ▸ ha.eccPosition_lt hN hbN hi))
    · have hdata : blockBytes d (d.runInterleaved P c w).buf b = blockBytes d w.buf b :=
        blockBytes_congr hbelow (fun a hlt => read_runBlock_below P w (Nat.lt_add_right c hlt)) hbN
      rw [← hdata]
      exact ih hcs (fun b' hb' => horder b' (List.mem_cons_of_mem _ hb')) hb ((runBlock_buf_length ..).trans hw)

end

theorem isEccPosition_of_perm {d : Desc} {order order' : List Nat} (h : order.Perm order') {a : Nat} :
    d.IsEccPosition order a ↔ d.IsEccPosition order' a := by
  simp only [Desc.IsEccPosition, h.mem_iff]

/-- Settles O36: each index reads the same in both orders, an ECC position by `read_runBlocks_ecc` and any other by
`read_runBlocks_other`. -/
theorem blockOrderNotObservable : Obligations.BlockOrderNotObservable := by
  intro P d w order hG ha hN hbelow hw hperm
  refine memory_ext fun a => ?_
  have hnodup : (List.range d.nblk.toNat).Nodup := List.nodup_range
  have hrange : ∀ b ∈ List.range d.nblk.toNat, b < d.nblk.toNat := fun b => List.mem_range.1
  by_cases hpos : d.IsEccPosition order a
  · obtain ⟨b, hb, i, hi, rfl⟩ := hpos
    have horder : ∀ b ∈ order, b < d.nblk.toNat := fun b hb => hrange b (hperm.mem_iff.1 hb)
    rw [read_runBlocks_ecc hG ha hN hbelow (hperm.nodup_iff.2 hnodup) horder hb hi hw,
      read_runBlocks_ecc hG ha hN hbelow hnodup hrange (hperm.mem_iff.1 hb) hi hw]
  · rw [read_runBlocks_other hG ha hN _ hpos,
      read_runBlocks_other hG ha hN _ (mt (isEccPosition_of_perm hperm).2 hpos)]

/-! ### `ENCODE` -/

/-- When the checks pass `ENCODE` stores the work of the three steps (R181). -/
theorem exec_encode_of_accepted {s : State} (hs : s.fault = false) (hlen : s.buf.length = s.desc.dcap.toNat)
    (ha : s.desc.Accepted Rom.defaults) :
    exec .encode s = .next (finishWork (.ok (s.desc.runSteps Rom.defaults (s.desc.grow s.work))) s) := by
  rw [exec_encode_of_clear hs, symbolEcc_accepted hlen ha]

theorem runSteps_of_interleaved (P : Params) {d : Desc} (hN : 1 < d.nblk.toNat) (w : Work) :
    d.runSteps P w = d.runBlocks P (List.range d.nblk.toNat) w :=
  if_neg (by rw [nblk_eq_one_iff]; omega)

/-- Settles O35: `ENCODE` runs the blocks on the grown buffer, whose bytes below `DCAP` are the old buffer's and whose
new bytes are 0. -/
theorem encodeInterleavedBlocks : Obligations.EncodeInterleavedBlocks := by
  intro s t hs hlen ha hN hbelow h
  have hE := ha.blkerr_mem hN
  have hgrow : (s.desc.grow s.work).buf.length = s.desc.cwcnt.toNat := growTo_length (hlen ▸ ha.order)
  rw [exec_encode_of_accepted hs hlen ha, runSteps_of_interleaved _ hN] at h
  cases h
  refine ⟨coefficients Rom.defaults s.desc.blkerr.toNat, coefficients_mem defaultGen_legal hE,
    coefficients_length defaultGen_legal hE, fun b hb i hi => ?_, fun a hlo hhi hother => ?_⟩
  · have hdata : blockBytes s.desc (s.desc.grow s.work).buf b = blockBytes s.desc s.buf b :=
      blockBytes_congr hbelow (fun a hlt => read_growTo_old (hlen ▸ hlt) _) hb
    rw [← hdata]
    exact read_runBlocks_ecc defaultGen_legal ha hN hbelow List.nodup_range (fun b => List.mem_range.1)
      (List.mem_range.2 hb) hi hgrow
  · have hpos : ¬s.desc.IsEccPosition (List.range s.desc.nblk.toNat) a :=
      fun ⟨b, hb, i, hi, hpos⟩ => hother b (List.mem_range.1 hb) i hi hpos
    exact (read_runBlocks_other defaultGen_legal ha hN _ hpos _).trans (read_growTo_new (hlen ▸ hlo) hhi)

end Sys2Proof.Machine
end

section
/-! PROOFS. The decoder and the rows of the opcode map (spec/30_encoding.md R91 to R96): a word is its fields, the
must-be-zero bits of a format are its mask bits, and a decoded word ends in one of three ways. -/

namespace Sys2Proof

open Sys2Proof.Machine Sys2Proof.Laws Sys2Proof.Claims

/-! ### A word is its fields -/

theorem midField_append_loField (w : Word) : midField w ++ loField w = immField w :=
  BitVec.extractLsb'_append_extractLsb'_eq_extractLsb' (start₁ := 0) (len₁ := 8) rfl

/-- A word is its opcode, its byte field and its 16-bit field (R91). -/
theorem packImm_fields (w : Word) : packImm (opField w) (hiField w) (immField w) = w := by
  have high : opField w ++ hiField w = w.extractLsb' 16 16 :=
    BitVec.extractLsb'_append_extractLsb'_eq_extractLsb' (start₁ := 16) (len₁ := 8) rfl
  have whole : w.extractLsb' 16 16 ++ immField w = w.extractLsb' 0 32 :=
    BitVec.extractLsb'_append_extractLsb'_eq_extractLsb' (start₁ := 0) (len₁ := 16) rfl
  rw [packImm, high, whole, BitVec.extractLsb'_eq_self]

theorem packWord_fields (w : Word) : packWord (opField w) (hiField w) (midField w) (loField w) = w := by
  rw [EncodedWordMatchesRow.packWord_eq, midField_append_loField, packImm_fields]

theorem eq_packImm_iff {w : Word} {op hi : BitVec 8} {imm : BitVec 16} :
    w = packImm op hi imm ↔ opField w = op ∧ hiField w = hi ∧ immField w = imm := by
  constructor
  · rintro rfl
    exact ⟨opField_packImm .., hiField_packImm .., immField_packImm ..⟩
  · rintro ⟨rfl, rfl, rfl⟩
    exact (packImm_fields w).symm

theorem opField_and (v w : Word) : opField (v &&& w) = opField v &&& opField w := BitVec.extractLsb'_and
theorem hiField_and (v w : Word) : hiField (v &&& w) = hiField v &&& hiField w := BitVec.extractLsb'_and
theorem immField_and (v w : Word) : immField (v &&& w) = immField v &&& immField w := BitVec.extractLsb'_and

/-! ### The masks -/

theorem and_byteMask (v : BitVec 8) : v &&& 0xFF#8 = v := BitVec.and_allOnes

theorem and_halfMask (v : BitVec 16) : v &&& 0xFFFF#16 = v := BitVec.and_allOnes

theorem immField_and_midMask_eq_zero_iff (w : Word) : immField w &&& 0xFF00#16 = 0#16 ↔ midField w = 0 := by
  have hmask : immField w &&& 0xFF00#16 = midField w ++ 0#8 := by
    rw [← midField_append_loField, show 0xFF00#16 = 0xFF#8 ++ 0#8 from rfl, BitVec.and_append, and_byteMask,
      BitVec.and_zero]
  rw [hmask, show 0#16 = 0#8 ++ 0#8 from rfl, BitVec.append_left_inj]
  rfl

theorem opField_mask (f : Format) : opField f.mask = 0xFF#8 := by cases f <;> rfl

/-- The must-be-zero bits of a format are the bits of its mask below the opcode (R91, R93). -/
theorem reservedClear_iff (f : Format) (w : Word) :
    reservedClear f w = true ↔ hiField w &&& hiField f.mask = 0 ∧ immField w &&& immField f.mask = 0 := by
  cases f with
  | p =>
    rw [show hiField Format.p.mask = 0xFF#8 from rfl, show immField Format.p.mask = 0xFF00#16 from rfl, and_byteMask]
    simp [reservedClear, immField_and_midMask_eq_zero_iff]
  | _ => simp [reservedClear, Format.mask, hiField, immField, and_byteMask, and_halfMask]

/-- The mask of a format selects the opcode and the must-be-zero bits (R93, R94). -/
theorem and_mask_eq_iff (f : Format) (op : BitVec 8) (w : Word) :
    w &&& f.mask = packImm op 0 0 ↔ opField w = op ∧ reservedClear f w = true := by
  rw [eq_packImm_iff, reservedClear_iff, opField_and, opField_mask, and_byteMask, hiField_and, immField_and]

/-! ### The rows -/

/-- The opcode of a row (R93). -/
def Row.opcode (row : Row) : BitVec 8 := opField row.matchWord

theorem matchWord_eq : ∀ row ∈ rows, row.matchWord = packImm row.opcode 0 0 := by decide

/-- The opcode alone tells the row. -/
theorem row_eq_of_opcode_eq : ∀ row ∈ rows, ∀ row' ∈ rows, row.opcode = row'.opcode → row = row' := by decide

/-- A word is covered by a row when it has its opcode and no must-be-zero bit (R93, R94). -/
theorem covers_iff {row : Row} (hrow : row ∈ rows) (w : Word) :
    w &&& row.format.mask = row.matchWord ↔ opField w = row.opcode ∧ reservedClear row.format w = true := by
  rw [matchWord_eq row hrow, and_mask_eq_iff]

/-- No two rows cover one word: their opcodes differ. -/
theorem row_eq_of_covers {w : Word} {row row' : Row} (hrow : row ∈ rows) (hrow' : row' ∈ rows)
    (h : w &&& row.format.mask = row.matchWord) (h' : w &&& row'.format.mask = row'.matchWord) : row = row' :=
  row_eq_of_opcode_eq row hrow row' hrow'
    (((covers_iff hrow w).1 h).1.symm.trans ((covers_iff hrow' w).1 h').1)

/-! ### How decoding ends -/

/-- The operand fields that a format has, packed again under an opcode (R91). -/
def Format.repack (f : Format) (op : BitVec 8) (w : Word) : Word :=
  match f with
  | .z => packImm op 0 0
  | .i => packImm op 0 (immField w)
  | .m => packWord op 0 (midField w) (loField w)
  | .w => packImm op (hiField w) (immField w)
  | .q => packImm op (hiField w) 0
  | .p => packWord op 0 0 (loField w)

/-- A word whose must-be-zero bits are zero is nothing but its opcode and its operands. -/
theorem repack_eq {f : Format} {op : BitVec 8} {w : Word} (hop : opField w = op) (hc : reservedClear f w = true) :
    f.repack op w = w := by
  subst hop
  cases f <;> simp only [reservedClear, Bool.and_eq_true, beq_iff_eq] at hc
  case z => rw [Format.repack, ← hc.1, ← hc.2, packImm_fields]
  case i => rw [Format.repack, ← hc, packImm_fields]
  case m => rw [Format.repack, ← hc, packWord_fields]
  case w => rw [Format.repack, packImm_fields]
  case q => rw [Format.repack, ← hc, packImm_fields]
  case p =>
    have hw := packWord_fields w
    rwa [hc.1, hc.2] at hw

/-- The outcome of decoding a word: the command of a row, or the reason there is none. -/
inductive DecodeEnds (w : Word) : Except DecodeError Instr → Prop
  | command {row i} : row ∈ rows → w &&& row.format.mask = row.matchWord → i.mnemonic = row.mnemonic → encode i = w →
      DecodeEnds w (.ok i)
  | reservedBits {row} : row ∈ rows → opField w = row.opcode → w &&& row.format.mask ≠ row.matchWord →
      DecodeEnds w (.error (.reservedBits (opField w)))
  | unassignedOpcode : opField w ∉ rows.map Row.opcode → DecodeEnds w (.error (.unassignedOpcode (opField w)))

/-- The must-be-zero bits decide how the word of a row ends (R94). -/
theorem decodeEnds_accept {w : Word} {row : Row} {i : Instr} {op : BitVec 8} (hrow : row ∈ rows)
    (hmatch : row.opcode = op) (hop : (opField w).toNat = op.toNat) (hm : i.mnemonic = row.mnemonic)
    (he : encode i = row.format.repack op w) : DecodeEnds w (accept row.format w i) := by
  have hop' : opField w = row.opcode := (BitVec.eq_of_toNat_eq hop).trans hmatch.symm
  unfold accept
  split
  next hc =>
    exact .command hrow ((covers_iff hrow w).2 ⟨hop', hc⟩) hm (he.trans (repack_eq (BitVec.eq_of_toNat_eq hop) hc))
  next hc => exact .reservedBits hrow hop' fun h => hc ((covers_iff hrow w).1 h).2

/-- The ten opcodes select the ten rows, and no row has another opcode (R93, R95). -/
theorem decode_ends (w : Word) : DecodeEnds w (decode w) := by
  unfold decode
  split
  next h => exact decodeEnds_accept (row := rows[0]) (op := 0x01#8) (List.getElem_mem _) rfl h rfl rfl
  next h => exact decodeEnds_accept (row := rows[1]) (op := 0x02#8) (List.getElem_mem _) rfl h rfl rfl
  next h => exact decodeEnds_accept (row := rows[2]) (op := 0x03#8) (List.getElem_mem _) rfl h rfl rfl
  next h => exact decodeEnds_accept (row := rows[3]) (op := 0x04#8) (List.getElem_mem _) rfl h rfl rfl
  next h => exact decodeEnds_accept (row := rows[4]) (op := 0x05#8) (List.getElem_mem _) rfl h rfl rfl
  next h => exact decodeEnds_accept (row := rows[5]) (op := 0x10#8) (List.getElem_mem _) rfl h rfl rfl
  next h => exact decodeEnds_accept (row := rows[6]) (op := 0x11#8) (List.getElem_mem _) rfl h rfl rfl
  next h => exact decodeEnds_accept (row := rows[7]) (op := 0x12#8) (List.getElem_mem _) rfl h rfl rfl
  next h => exact decodeEnds_accept (row := rows[8]) (op := 0x13#8) (List.getElem_mem _) rfl h rfl rfl
  next h => exact decodeEnds_accept (row := rows[9]) (op := 0x14#8) (List.getElem_mem _) rfl h rfl rfl
  next =>
    refine .unassignedOpcode fun hmem => ?_
    have hop : (opField w).toNat ∈ (rows.map Row.opcode).map BitVec.toNat := List.mem_map_of_mem hmem
    rw [show (rows.map Row.opcode).map BitVec.toNat = [1, 2, 3, 4, 5, 16, 17, 18, 19, 20] from by decide] at hop
    simp only [List.mem_cons, List.not_mem_nil, or_false] at hop
    tauto

/-! ### The statements -/

/-- Settles O2: the decoder reads back the fields that each format packs. -/
theorem decodeOfEncode : Obligations.DecodeOfEncode := decode_encode

/-- Settles O3: a word that decodes has its must-be-zero bits zero, so it is its opcode and operands packed. -/
theorem encodeOfDecode : Obligations.EncodeOfDecode := by
  intro w i h
  have hends := decode_ends w
  rw [h] at hends
  cases hends with
  | command _ _ _ hencode => exact hencode

/-- Settles O4: a covered word has the opcode of its row alone and no must-be-zero bit, so decoding ends in its
command. -/
theorem wordIsCommandOfItsRow : Obligations.WordIsCommandOfItsRow := by
  intro w
  have hends := decode_ends w
  refine ⟨fun i h => ?_, fun row hrow hcov => ?_, fun row hrow row' hrow' => row_eq_of_covers hrow hrow'⟩
  · rw [h] at hends
    cases hends with
    | command hrow hcov hmnemonic _ => exact ⟨_, hrow, hmnemonic.symm, hcov⟩
  · have hop : opField w = row.opcode := ((covers_iff hrow w).1 hcov).1
    generalize decode w = d at hends
    cases hends with
    | command hrow' hcov' hmnemonic _ =>
      exact ⟨_, rfl, row_eq_of_covers hrow hrow' hcov hcov' ▸ hmnemonic⟩
    | reservedBits hrow' hop' hcov' =>
      obtain rfl := row_eq_of_opcode_eq row hrow _ hrow' (hop.symm.trans hop')
      exact absurd hcov hcov'
    | unassignedOpcode hop' => exact absurd (hop ▸ List.mem_map_of_mem hrow) hop'

/-- A word that decodes to no command takes the fault `IllegalCommand` (R95). -/
theorem runWord_of_error {w : Word} {e : DecodeError} (h : decode w = .error e) {s : State} (hs : s.fault = false) :
    runWord w s = .next (faulted 1 s) := by
  rw [runWord, h]
  exact congrArg _ ((unlessFaulted_of_clear hs _).trans (takeFault_eq_faulted .illegalCommand s))

/-- Settles O5: decoding an uncovered word ends in one of the two errors, the opcode decides which. -/
theorem illegalWordFaults : Obligations.IllegalWordFaults := by
  intro w s hnone hs
  have hopcodes : rows.map Row.opcode =
      [0x01#8, 0x02#8, 0x03#8, 0x04#8, 0x05#8, 0x10#8, 0x11#8, 0x12#8, 0x13#8, 0x14#8] := by decide
  rw [← hopcodes]
  change decode w = ite (opField w ∈ rows.map Row.opcode) _ _ ∧ _
  have hends := decode_ends w
  generalize hd : decode w = d at hends
  cases hends with
  | command hrow hcov => exact absurd hcov (hnone _ hrow)
  | reservedBits hrow hop => exact ⟨(if_pos (hop ▸ List.mem_map_of_mem hrow)).symm, runWord_of_error hd hs⟩
  | unassignedOpcode hop => exact ⟨(if_neg hop).symm, runWord_of_error hd hs⟩

/-- Settles O1: the example words are the encodings of their commands. -/
theorem exampleWordsDecode : Obligations.ExampleWordsDecode :=
  ⟨decode_encode (.gfmul 2 128), decode_encode (.genfind 5), decode_encode (.genrd 4), decode_encode .eccblk,
    decode_encode .encode, decode_encode (.wrreg 0x08 3), decode_encode (.wrreg 0x21 155),
    decode_encode (.rdreg 0x00), decode_encode (.rdreg 0x06), decode_encode .bufclr, decode_encode (.bufpush 142),
    decode_encode (.bufrd 7)⟩

end Sys2Proof
end

section
/-! PROOFS. One response per command (spec/30_encoding.md R97): every ending puts one word on the list, and the
invariant says that it is a legal one. -/

namespace Sys2Proof.Machine

open Sys2Proof.Config

theorem CommandEnds.exists_response {P : Params} {s t : State} {i : Instr} (h : CommandEnds P s i t) :
    ∃ r, t.responses = r :: s.responses := by
  cases h with
  | wrreg => exact ⟨_, congrArg _ (writeReg_responses ..)⟩
  | _ => exact ⟨_, rfl⟩

theorem illegalCommand_answers (s : State) :
    (∃ r, (illegalCommand s).responses = r :: s.responses) ∧ (illegalCommand s).inputs = s.inputs :=
  unlessFaulted_rec (p := fun t => (∃ r, t.responses = r :: s.responses) ∧ t.inputs = s.inputs)
    (fun _ => ⟨⟨_, rfl⟩, rfl⟩) fun _ => ⟨⟨_, rfl⟩, rfl⟩

theorem commandWord_answers (P : Params) (w : Word) (s : State) :
    (∃ r, (commandWord P w s).responses = r :: s.responses) ∧ (commandWord P w s).inputs = s.inputs := by
  unfold commandWord
  cases decode w with
  | ok i => exact ⟨(command_ends P i s).exists_response, (command_ends P i s).inputs_eq⟩
  | error _ => exact illegalCommand_answers s

/-- Settles O52: the one response is legal because the word keeps the invariant, which speaks of all responses. -/
theorem oneLegalResponsePerCommand : Obligations.OneLegalResponsePerCommand := by
  intro w s h
  obtain ⟨⟨r, hr⟩, hin⟩ := commandWord_answers Rom.defaults w s
  have hlegal := (commandWord_keeps_inv defaultParams_legal h w).responses r (hr ▸ List.mem_cons_self)
  exact ⟨r, _, runWord_eq_commandWord w s, hr, hlegal, hin⟩

end Sys2Proof.Machine
end

section
/-! PROOFS. The pseudo-instructions (spec/30_encoding.md R100): a program runs command by command, and the host-access
commands each name their effect when their checks pass (spec/45_host_access.md R200 to R204). -/

namespace Sys2Proof.Machine

open Sys2Proof.Config Sys2Proof.Claims

section
variable {P : Params} {s : State}

/-! ### Programs -/

theorem commandWord_encode (P : Params) (i : Instr) (s : State) : commandWord P (encode i) s = command P i s := by
  rw [commandWord, decode_encode]

theorem runProgram_nil (P : Params) (s : State) : runProgram P [] s = s := rfl

theorem runProgram_cons (P : Params) (i : Instr) (is : List Instr) (s : State) :
    runProgram P (i :: is) s = runProgram P is (command P i s) := by
  rw [← commandWord_encode]
  rfl

/-! ### The host-access commands, their checks passed -/

theorem command_bufclr (P : Params) (hs : s.fault = false) :
    command P .bufclr s = respondOk 0 { s with buf := [] } := unlessFaulted_of_clear hs _

theorem command_bufpush (hs : s.fault = false) (hroom : s.buf.length ≠ P.bufMax) (v : Byte) :
    command P (.bufpush v) s = respondOk (lenOf (s.buf.length + 1)) { s with buf := s.buf.push v } := by
  rw [command, bufpushCommand, unlessFaulted_of_clear hs, if_neg hroom]
  exact congrArg (fun n => respondOk (lenOf n) _) (push_length s.buf v)

theorem command_bufrd (P : Params) (hs : s.fault = false) {i : Len} (hi : i.toNat < s.buf.length) :
    command P (.bufrd i) s = respondOk (zext16 (s.buf.load i.toNat)) s := by
  rw [command, bufrdCommand, unlessFaulted_of_clear hs, read_eq_load hi]

theorem command_wrreg (hs : s.fault = false) {r : RegNum} {x : Reg} (hx : regOf P r = some x)
    (hw : x.writable = true) (v : Len) : command P (.wrreg r v) s = respondOk 0 (s.writeReg v x) := by
  rw [command, wrregCommand, unlessFaulted_of_clear hs, hx]
  exact if_pos hw

/-! ### `LOADBUF` and `DUMPBUF` -/

theorem runProgram_bufpush (vs : List Byte) (hs : s.fault = false) (hroom : s.buf.length + vs.length ≤ P.bufMax) :
    ∃ rs, runProgram P (vs.map .bufpush) s = { s with buf := s.buf ++ vs, responses := rs ++ s.responses } := by
  induction vs generalizing s with
  | nil => exact ⟨[], by rw [List.append_nil]; rfl⟩
  | cons v vs ih =>
    rw [List.length_cons] at hroom
    rw [List.map_cons, runProgram_cons, command_bufpush hs (by omega)]
    obtain ⟨rs, hrs⟩ := ih (s := respondOk (lenOf (s.buf.length + 1)) { s with buf := s.buf.push v }) hs
      (by rw [respondOk_buf, push_length]; omega)
    refine ⟨rs ++ [okWord (lenOf (s.buf.length + 1))], hrs.trans ?_⟩
    simp [respondOk_eq, Memory.push]

theorem runProgram_loadbuf (vs : List Byte) (hs : s.fault = false) (hroom : vs.length ≤ P.bufMax) :
    ∃ rs, runProgram P (Pseudo.expand (.loadbuf (vs.map BitVec.toNat))) s =
      { s with buf := vs, responses := rs ++ s.responses } := by
  have hexpand : Pseudo.expand (.loadbuf (vs.map BitVec.toNat)) = .bufclr :: vs.map .bufpush := by
    simp [Pseudo.expand, Function.comp_def]
  rw [hexpand, runProgram_cons, command_bufclr P hs]
  obtain ⟨rs, hrs⟩ := runProgram_bufpush (P := P) (s := respondOk 0 { s with buf := [] }) vs hs
    (by simpa using hroom)
  refine ⟨rs ++ [okWord 0], hrs.trans ?_⟩
  simp [respondOk_eq]

theorem runProgram_bufrd (P : Params) (is : List Len) (hs : s.fault = false) (his : ∀ i ∈ is, i.toNat < s.buf.length) :
    runProgram P (is.map .bufrd) s =
      { s with responses := (is.map fun i => okWord (zext16 (s.buf.load i.toNat))).reverse ++ s.responses } := by
  induction is generalizing s with
  | nil => rfl
  | cons i is ih =>
    obtain ⟨hi, his⟩ := List.forall_mem_cons.1 his
    rw [List.map_cons, runProgram_cons, command_bufrd P hs hi, ih (s := respondOk _ s) hs his]
    simp [respondOk_eq]

theorem map_load_range (m : Memory) : (List.range m.length).map m.load = m := by
  refine List.ext_getElem (by simp) fun i _ hi => ?_
  simp [Memory.load, Memory.read, hi]

theorem toNat_lenOf {n : Nat} (hn : n ≤ 65535) : (lenOf n).toNat = n :=
  (BitVec.toNat_ofNat n 16).trans (Nat.mod_eq_of_lt (by omega))

theorem runProgram_dumpbuf (P : Params) (hs : s.fault = false) (hlen : s.buf.length ≤ 65535) :
    runProgram P (Pseudo.expand (.dumpbuf s.buf.length)) s =
      { s with responses := (s.buf.map fun v => okWord (zext16 v)).reverse ++ s.responses } := by
  have hexpand : Pseudo.expand (.dumpbuf s.buf.length) = ((List.range s.buf.length).map lenOf).map .bufrd :=
    List.map_map.symm
  have htoNat {i : Nat} (hi : i ∈ List.range s.buf.length) : (lenOf i).toNat = i :=
    toNat_lenOf ((List.mem_range.1 hi).le.trans hlen)
  have hanswers : ((List.range s.buf.length).map lenOf).map (fun i => okWord (zext16 (s.buf.load i.toNat))) =
      s.buf.map fun v => okWord (zext16 v) := by
    conv_rhs => rw [← map_load_range s.buf, List.map_map]
    rw [List.map_map]
    exact List.map_congr_left fun i hi => congrArg (fun a => okWord (zext16 (s.buf.load a))) (htoNat hi)
  rw [hexpand, runProgram_bufrd P _ hs, hanswers]
  exact List.forall_mem_map.2 fun i hi => (htoNat hi).trans_lt (List.mem_range.1 hi)

/-! ### The register writes -/

/-- A run of `WRREG`s, each given by its register number, the register of that number and the value. -/
theorem runProgram_wrreg (ws : List (RegNum × Reg × Len)) (hs : s.fault = false)
    (hws : ∀ w ∈ ws, regOf P w.1 = some w.2.1 ∧ w.2.1.writable = true) :
    runProgram P (ws.map fun w => .wrreg w.1 w.2.2) s =
      ws.foldl (fun s w => respondOk 0 (s.writeReg w.2.2 w.2.1)) s := by
  induction ws generalizing s with
  | nil => rfl
  | cons w ws ih =>
    obtain ⟨⟨hx, hw⟩, hws⟩ := List.forall_mem_cons.1 hws
    rw [List.map_cons, runProgram_cons, command_wrreg hs hx hw]
    exact ih ((writeReg_fault ..).trans hs) hws

theorem runProgram_setdesc (P : Params) (hs : s.fault = false) (a b c d e : Len) :
    runProgram P (Pseudo.expand (.setdesc a.toNat b.toNat c.toNat d.toNat e.toNat)) s =
      { s with
        desc := { s.desc with dcap := a, cwcnt := b, nblk := c, errcw := d, blkerr := e }
        responses := List.replicate 5 (okResponse 0) ++ s.responses } := by
  simp only [Pseudo.expand, BitVec.ofNat_toNat, BitVec.setWidth_eq]
  refine runProgram_wrreg [(0x08, .dcap, a), (0x09, .cwcnt, b), (0x0A, .nblk, c), (0x0B, .errcw, d), (0x0C, .blkerr, e)]
    hs ?_
  simp [regOf, regMap, Reg.writable, List.lookup]

theorem runProgram_setparam (P : Params) (hs : s.fault = false) (a b c d e : Len) :
    runProgram P (Pseudo.expand (.setparam a.toNat b.toNat c.toNat d.toNat e.toNat)) s =
      { s with
        param := { codeOff := a, codeLen := b, eccOff := c, eccLen := d, stride := e }
        responses := List.replicate 5 (okResponse 0) ++ s.responses } := by
  simp only [Pseudo.expand, BitVec.ofNat_toNat, BitVec.setWidth_eq]
  refine runProgram_wrreg
    [(0x10, .pCodeoff, a), (0x11, .pCodelen, b), (0x12, .pEccoff, c), (0x13, .pEcclen, d), (0x14, .pStride, e)] hs ?_
  simp [regOf, regMap, Reg.writable, List.lookup]

theorem runProgram_setblk (hs : s.fault = false) {m : Nat} (h1 : 1 ≤ m) (hm : m ≤ P.nblkMax) (hP : P.nblkMax ≤ 224)
    (v : Len) :
    runProgram P (Pseudo.expand (.setblk m v.toNat)) s =
      { s with
        desc := { s.desc with blkdata := s.desc.blkdata.set (m - 1) v }
        responses := okResponse 0 :: s.responses } := by
  rw [Pseudo.expand, BitVec.ofNat_toNat, BitVec.setWidth_eq, Nat.add_sub_assoc h1, runProgram_cons,
    command_wrreg hs (regOf_blkdata h1 hm hP) rfl]
  rfl

end

/-- Settles O47: each expansion is run command by command; the legal parameters keep every length in 16 bits and every
block number in 8. -/
theorem pseudoInstructionsDoWhatTheyName : Obligations.PseudoInstructionsDoWhatTheyName := fun P _ hP hs =>
  ⟨fun vs hroom => runProgram_loadbuf vs hs hroom, runProgram_setdesc P hs,
    fun _ v h1 hm => runProgram_setblk hs h1 hm hP.nblkMax.2 v, runProgram_setparam P hs,
    fun hlen => runProgram_dumpbuf P hs (hlen.trans hP.bufMax.2)⟩

end Sys2Proof.Machine
end

section
/-! PROOFS. The multiplier and `GFMUL` (spec/41_gf256_multiply.md): the logs and the index at which `ALOG` is read
(R123), the laws that need no premise on the tables (R120, R122), the default product as the product modulo 0x12D
(R128), and the command (R121). -/

namespace Sys2Proof.Machine

open Sys2Proof.Config Sys2Proof.Claims

/-! ### For any tables -/

theorem gfmul_of_ne_zero (F : FieldTables) {a b : Byte} (ha : a ≠ 0) (hb : b ≠ 0) :
    gfmul F a b = alogOf F ((logOf F a + logOf F b) % 255) :=
  if_neg (not_or.2 ⟨ha, hb⟩)

theorem gfmul_zero (F : FieldTables) (a : Byte) : gfmul F a 0 = 0 := if_pos (.inr rfl)

theorem zero_gfmul (F : FieldTables) (b : Byte) : gfmul F 0 b = 0 := if_pos (.inl rfl)

/-- The zero test and the log sum are each symmetric in the operands. -/
theorem gfmul_comm (F : FieldTables) (a b : Byte) : gfmul F a b = gfmul F b a := by
  rw [gfmul, gfmul, Nat.add_comm]
  exact if_congr or_comm rfl rfl

/-- Settles O14: the operands enter symmetrically, and the zero test comes before any read of the tables. -/
theorem multiplierLawsForAnyTables : Obligations.MultiplierLawsForAnyTables := fun F a b =>
  ⟨gfmul_comm F a b, gfmul_zero F a, zero_gfmul F b⟩

/-! ### The log sum -/

section
variable {F : FieldTables} (hF : FieldLegal F)
include hF

/-- Every byte addresses a word of `LOG`. -/
theorem FieldLegal.exists_getElem?_log (e : Byte) : ∃ l, F.log[e.toNat]? = some l ∧ l.toNat = logOf F e := by
  have hlt : e.toNat < F.log.length := hF.logLength ▸ e.isLt
  refine ⟨F.log[e.toNat], List.getElem?_eq_getElem hlt, ?_⟩
  rw [logOf, List.getD_eq_getElem _ _ hlt]

theorem FieldLegal.getElem?_alog {i : Nat} (hi : i < 255) : F.alog[i]? = some (alogOf F i) := by
  have hlt : i < F.alog.length := hF.alogOnce.1.symm ▸ hi
  rw [alogOf, List.getD_eq_getElem _ _ hlt, List.getElem?_eq_getElem hlt]

end

/-- Reducing a sum of two logs modulo 255 takes one subtraction at most. -/
theorem mod_255_eq_ite {n : Nat} (hn : n ≤ 508) : n % 255 = if n < 255 then n else n - 255 := by
  split <;> omega

/-- Settles O12: the logs are below 255, so their sum needs one reduction at most, and `ALOG` has the word. -/
theorem logSumReducedModulo255 : Obligations.LogSumReducedModulo255 := by
  intro F hF a b ha hb
  obtain ⟨la, hla, ea⟩ := hF.exists_getElem?_log a
  obtain ⟨lb, hlb, eb⟩ := hF.exists_getElem?_log b
  have hla254 : la.toNat ≤ 254 := ea ▸ Nat.le_of_lt_succ (hF.logOf_lt ha)
  have hlb254 : lb.toNat ≤ 254 := eb ▸ Nat.le_of_lt_succ (hF.logOf_lt hb)
  have hsum : la.toNat + lb.toNat ≤ 508 := Nat.add_le_add hla254 hlb254
  have hlt : (la.toNat + lb.toNat) % 255 < 255 := Nat.mod_lt _ (by decide)
  refine ⟨la, lb, hla, hlb, hla254, hlb254, hsum, mod_255_eq_ite hsum, Nat.le_of_lt_succ hlt, ?_⟩
  rw [hF.getElem?_alog hlt, gfmul_of_ne_zero F ha hb, ea, eb]

/-! ### The default product -/

/-- The reduction adds the low byte of `p`; bit 8 only cancels the bit that falls out. -/
theorem xtimes_congr {p q : BitVec 9} (h : p.setWidth 8 = q.setWidth 8) (v : Byte) : xtimes p v = xtimes q v := by
  rw [xtimes_eq, xtimes_eq, h]

theorem polyMul_congr {p q : BitVec 9} (h : p.setWidth 8 = q.setWidth 8) (a b : Byte) :
    polyMul p a b = polyMul q a b := by
  have hstep : hornerStep p a b = hornerStep q a b := by
    funext acc t
    rw [hornerStep, hornerStep, xtimes_congr h]
  rw [polyMul_eq_foldl, polyMul_eq_foldl, hstep]

theorem two_polyMul (p : BitVec 9) (b : Byte) : polyMul p 2 b = xtimes p b := by
  have h := map_polyMul (xtimes_respectsShift p) 1 b
  rw [one_polyMul] at h
  exact h.symm

/-- `x * x^7` is `x^8`, which is the rest of `p`. -/
theorem two_polyMul_128 (p : BitVec 9) : polyMul p 2 128 = p.setWidth 8 := by
  rw [two_polyMul, xtimes_eq]
  exact BitVec.zero_xor

/-- One product read from the default tables, `x * x^7`, which shows the modulus. -/
theorem default_gfmul_two_128 : gfmul Rom.defaults.field 2 128 = 0x2D := by decide +kernel

/-- Settles O15: legal tables multiply modulo some polynomial, and `x * x^7` shows which it is. -/
theorem defaultProductIsPolynomialProduct : Obligations.DefaultProductIsPolynomialProduct := by
  intro a b
  obtain ⟨p, -, hmul, -⟩ := defaultField_legal.exists_polyMul
  have hp : p.setWidth 8 = (0x12D : BitVec 9).setWidth 8 := by
    rw [← two_polyMul_128, ← hmul, default_gfmul_two_128]
    rfl
  rw [hmul, polyMul_congr hp]

/-! ### The command -/

theorem gfmulCommand_of_clear (P : Params) (a b : Byte) {s : State} (h : s.fault = false) :
    gfmulCommand P a b s =
      { s with
        res := gfmul P.field a b
        responses := okResponse ((gfmul P.field a b).setWidth 16) :: s.responses } := by
  rw [gfmulCommand, unlessFaulted_of_clear h, respondOk_eq, okWord_eq_okResponse]
  rfl

theorem gfmulCommand_of_fault (P : Params) (a b : Byte) {s : State} (h : s.fault = true) :
    gfmulCommand P a b s = answered (faultResponse s.fcause) s := by
  rw [gfmulCommand, unlessFaulted_of_fault h, answerFault_eq_answered]

/-- Settles O16: the word is packed from its fields, and `FAULT` decides between the two endings. -/
theorem gfmulResult : Obligations.GfmulResult := fun a b s =>
  ⟨rfl, fun h => by rw [exec_gfmul, gfmulCommand_of_clear _ a b h],
    fun h => by rw [exec_gfmul, gfmulCommand_of_fault _ a b h]⟩

end Sys2Proof.Machine
end

section
/-! PROOFS. The catalog lookup and its two commands (spec/42_generator_catalog.md R140, R141, R143): the lookup inverts
the list of lengths, `GENFIND` records what it found, and in a state that meets the invariant the selection registers
name an entry of the catalog. -/

namespace Sys2Proof.Machine

open Sys2Proof.Config Sys2Proof.Claims

/-! ### The lookup -/

theorem genLen_nodup : genLen.Nodup := by decide

theorem exists_findGenerator {n : Nat} (hn : n ∈ genLen) : ∃ j, findGenerator n = some j :=
  Option.ne_none_iff_exists'.1 (mt (findGenerator_eq_none_iff n).1 (not_not.2 hn))

theorem getElem?_of_findGenerator {n j : Nat} (h : findGenerator n = some j) : genLen[j]? = some n := by
  obtain ⟨hj, hn⟩ := findGenerator_some h
  rw [← hn, List.getD_eq_getElem _ _ hj, List.getElem?_eq_getElem hj]

/-- No length stands twice in the catalog, so the index found is the only one. -/
theorem findGenerator_eq_some_iff {n j : Nat} : findGenerator n = some j ↔ genLen[j]? = some n := by
  refine ⟨getElem?_of_findGenerator, fun h => ?_⟩
  obtain ⟨hj, -⟩ := List.getElem?_eq_some_iff.1 h
  obtain ⟨i, hi⟩ := exists_findGenerator (List.mem_of_getElem? h)
  have hij : j = i := (List.getElem?_inj hj genLen_nodup).1 (h.trans (getElem?_of_findGenerator hi).symm)
  rw [hi, hij]

/-- Settles O17: the lookup inverts the list of the 16 lengths. -/
theorem lookupByExactLength : Obligations.LookupByExactLength := fun n =>
  ⟨fun _ => ⟨fun h => ⟨(findGenerator_some h).1, getElem?_of_findGenerator h⟩,
    fun h => findGenerator_eq_some_iff.2 h.2⟩, findGenerator_eq_none_iff n⟩

/-! ### `GENFIND` -/

theorem genfindCommand_of_found {n : Len} {j : Nat} (hj : findGenerator n.toNat = some j) {s : State}
    (hs : s.fault = false) :
    genfindCommand n s = respondOk (lenOf j) ({ s with gsel := selectWord j, glen := n }.recordSuccess) := by
  rw [genfindCommand, unlessFaulted_of_clear hs, hj]

theorem genfindCommand_of_notFound {n : Len} (hn : n.toNat ∉ genLen) {s : State} (hs : s.fault = false) :
    genfindCommand n s = unsupported n { s with gsel := 0, glen := 0 } := by
  rw [genfindCommand, unlessFaulted_of_clear hs, (findGenerator_eq_none_iff _).2 hn, ← raiseError_eq_unsupported]

theorem selectWord_eq (j : Nat) : selectWord j = BitVec.ofNat 16 (0x8000 + j) := (BitVec.ofNat_add 0x8000 j).symm

theorem exec_of_fault (i : Instr) {s : State} (hs : s.fault = true) :
    exec i s = .next (answered (faultResponse s.fcause) s) := by
  rw [exec_eq_command, command_of_fault _ i hs, answerFault_eq_answered]

/-- Settles O18: the two outcomes of the lookup are the two endings of the command. -/
theorem genfindResult : Obligations.GenfindResult := by
  refine fun n s => ⟨rfl, fun hs j _ hj => ?_, fun hs hn => ?_, exec_of_fault _⟩
  · rw [exec_genfind, genfindCommand_of_found (findGenerator_eq_some_iff.2 hj) hs, selectWord_eq]
    rfl
  · rw [exec_genfind, genfindCommand_of_notFound hn hs]

/-! ### `GENRD` -/

/-- `GVALID` and `GIDX` of the word that selects an entry (R33). -/
theorem selectWord_fields :
    ∀ j < 16, (selectWord j).getLsbD 15 = true ∧ ((selectWord j).extractLsb' 0 4).toNat = j := by decide

/-- A legal catalog has an entry at each of the 16 indices, of the length the list gives (R22). -/
theorem GenLegal.exists_entry {P : Params} (hG : GenLegal P.gen) {j n : Nat} (hj : genLen[j]? = some n) :
    ∃ g, P.gen[j]? = some g ∧ g.length = n := by
  rwa [← hG, List.getElem?_map, Option.map_eq_some_iff] at hj

/-- In a state that meets the invariant the entry selected exists and has `GLEN` coefficients (R33). -/
theorem State.SelectionLegal.exists_entry {P : Params} (hG : GenLegal P.gen) {s : State} (hsel : s.SelectionLegal)
    (hvalid : s.gvalid = true) : ∃ g, P.gen[s.gidx]? = some g ∧ g.length = s.glen.toNat := by
  rcases hsel with ⟨h0, -⟩ | ⟨j, hj, hgsel, hglen⟩
  · rw [State.gvalid, h0] at hvalid
    cases hvalid
  · have hidx : s.gidx = j := by
      rw [State.gidx, hgsel]
      exact (selectWord_fields j hj).2
    rw [hidx, hglen]
    exact hG.exists_entry (by rw [List.getD_eq_getElem _ _ hj, List.getElem?_eq_getElem hj])

theorem genrdCommand_of_entry {P : Params} {s : State} {k : Len} {g : List Byte} {c : Byte} (hs : s.fault = false)
    (hvalid : s.gvalid = true) (hk : k.toNat < s.glen.toNat) (hg : P.gen[s.gidx]? = some g)
    (hc : g[k.toNat]? = some c) : genrdCommand P k s = answered (okResponse (c.setWidth 16)) s := by
  have hpass : ¬(s.gvalid = false ∨ s.glen.toNat ≤ k.toNat) := by simp [hvalid, hk]
  have hread : (entry P s.gidx).getD k.toNat 0 = c := by
    simp only [entry, List.getD_eq_getElem?_getD, hg, hc, Option.getD_some]
  rw [genrdCommand, unlessFaulted_of_clear hs, if_neg hpass, hread]
  rfl

theorem genrdCommand_outOfRange (P : Params) {s : State} {k : Len} (hs : s.fault = false)
    (h : s.gvalid = false ∨ s.glen.toNat ≤ k.toNat) : genrdCommand P k s = faulted 4 s := by
  rw [genrdCommand, unlessFaulted_of_clear hs, if_pos h, takeFault_eq_faulted]
  rfl

/-- Settles O19: the selected entry has `GLEN` coefficients, so an index below `GLEN` reads one of them. -/
theorem genrdResult : Obligations.GenrdResult := by
  refine fun k s hinv => ⟨rfl, fun hs hvalid hk => ?_, fun hs h => ?_, exec_of_fault _⟩
  · obtain ⟨g, hg, hlen⟩ := hinv.selection.exists_entry defaultGen_legal hvalid
    have hc : g[k.toNat]? = some g[k.toNat] := List.getElem?_eq_getElem (hlen.symm ▸ hk)
    exact ⟨g, _, hg, hlen, hc, by rw [exec_genrd, genrdCommand_of_entry hs hvalid hk hg hc]⟩
  · rw [exec_genrd, genrdCommand_outOfRange _ hs h]

end Sys2Proof.Machine
end

section
/-! PROOFS. Polynomials over a legal `FIELD` (spec/43_block_ecc.md R169): Horner's rule for a sum, a multiple and one
coefficient more; every step of the shift register keeps the roots of the generator; and the polynomials of R146 are the
only monic ones with their roots (spec/42_generator_catalog.md). -/

namespace Sys2Proof.Machine

open Sys2Proof.Config

/-! ### Horner's rule -/

/-- One coefficient more multiplies by `x` and adds the coefficient. -/
theorem evalPoly_concat (F : FieldTables) (cs : List Byte) (c x : Byte) :
    evalPoly F (cs ++ [c]) x = gfmul F (evalPoly F cs x) x ^^^ c := List.foldl_concat ..

theorem evalPoly_reverse_cons (F : FieldTables) (c : Byte) (cs : List Byte) (x : Byte) :
    evalPoly F (c :: cs).reverse x = gfmul F (evalPoly F cs.reverse x) x ^^^ c := by
  rw [List.reverse_cons, evalPoly_concat]

theorem evalPoly_singleton (F : FieldTables) (c x : Byte) : evalPoly F [c] x = c := by
  rw [evalPoly, List.foldl_cons, zero_gfmul]
  exact BitVec.zero_xor

theorem evalPoly_zero_cons (F : FieldTables) (cs : List Byte) (x : Byte) :
    evalPoly F (0 :: cs) x = evalPoly F cs x := by
  rw [evalPoly, List.foldl_cons, zero_gfmul]
  rfl

theorem evalPoly_replicate_zero (F : FieldTables) (n : Nat) (x : Byte) : evalPoly F (List.replicate n 0) x = 0 := by
  induction n with
  | zero => rfl
  | succ n ih => rw [List.replicate_succ, evalPoly_zero_cons, ih]

theorem xorList_cons (a b : Byte) (as bs : List Byte) : xorList (a :: as) (b :: bs) = (a ^^^ b) :: xorList as bs := rfl

theorem xorList_reverse {as bs : List Byte} (h : as.length = bs.length) :
    (xorList as bs).reverse = xorList as.reverse bs.reverse := List.reverse_zipWith h

theorem scale_reverse (F : FieldTables) (c : Byte) (cs : List Byte) :
    (scale F c cs).reverse = scale F c cs.reverse := List.map_reverse.symm

theorem scale_cons (F : FieldTables) (c a : Byte) (as : List Byte) :
    scale F c (a :: as) = gfmul F c a :: scale F c as := rfl

section
variable {F : FieldTables} (hF : FieldLegal F)
include hF

theorem FieldLegal.gfmul_one (a : Byte) : gfmul F a 1 = a := (hF.gfmul_comm a 1).trans (hF.one_gfmul a)

theorem FieldLegal.xor_gfmul (a b c : Byte) : gfmul F (a ^^^ b) c = gfmul F a c ^^^ gfmul F b c := by
  rw [hF.gfmul_comm, hF.gfmul_xor, hF.gfmul_comm c a, hF.gfmul_comm c b]

/-- The value of a sum after leading coefficients whose values add up. -/
theorem FieldLegal.evalPoly_append_xorList {ps qs rs as bs : List Byte} {x : Byte}
    (hlead : evalPoly F rs x = evalPoly F ps x ^^^ evalPoly F qs x) (hlen : as.length = bs.length) :
    evalPoly F (rs ++ xorList as bs) x = evalPoly F (ps ++ as) x ^^^ evalPoly F (qs ++ bs) x := by
  induction as generalizing bs ps qs rs with
  | nil =>
    obtain rfl := List.eq_nil_of_length_eq_zero hlen.symm
    simpa [xorList] using hlead
  | cons a as ih =>
    obtain ⟨b, bs, rfl⟩ := List.exists_cons_of_length_eq_add_one hlen.symm
    have hnext : evalPoly F (rs ++ [a ^^^ b]) x = evalPoly F (ps ++ [a]) x ^^^ evalPoly F (qs ++ [b]) x := by
      rw [evalPoly_concat, evalPoly_concat, evalPoly_concat, hlead, hF.xor_gfmul]
      ac_rfl
    simpa [xorList] using ih hnext (Nat.succ.inj hlen)

theorem FieldLegal.evalPoly_xorList {as bs : List Byte} (hlen : as.length = bs.length) (x : Byte) :
    evalPoly F (xorList as bs) x = evalPoly F as x ^^^ evalPoly F bs x :=
  hF.evalPoly_append_xorList (ps := []) (qs := []) (rs := []) BitVec.xor_zero.symm hlen

theorem FieldLegal.evalPoly_scale (c : Byte) (cs : List Byte) (x : Byte) :
    evalPoly F (scale F c cs) x = gfmul F c (evalPoly F cs x) := by
  induction cs using List.reverseRecOn with
  | nil => exact (gfmul_zero F c).symm
  | append_singleton cs d ih =>
    rw [evalPoly_concat, hF.gfmul_xor, ← hF.gfmul_assoc, ← ih, ← evalPoly_concat, scale, scale, List.map_append,
      List.map_singleton]

end

/-! ### The register keeps the roots -/

theorem feedback_concat (R : List Byte) (r d : Byte) : feedback (R ++ [r]) d = r ^^^ d := by
  simp [feedback]

/-- A step shifts the register up, where its last byte falls out, and adds the feedback times the entry (R161). -/
theorem lfsrStep_concat (F : FieldTables) {g0 : Byte} {gs R : List Byte} (h : R.length = gs.length) (r d : Byte) :
    lfsrStep F (g0 :: gs) (R ++ [r]) d = xorList (0 :: R) (scale F (r ^^^ d) (g0 :: gs)) := by
  have hfall := List.zipWith_append (f := fun s gk => s ^^^ gfmul F (r ^^^ d) gk) (l₁' := [r]) (l₂' := []) h
  rw [List.append_nil, List.zipWith_nil_right, List.append_nil] at hfall
  simp only [lfsrStep, feedback_concat, hfall, xorList, scale, List.map_cons, List.zipWith_cons_cons,
    List.zipWith_map_right, BitVec.ofNat_eq_ofNat, BitVec.zero_xor]

theorem lfsrStep_reverse (F : FieldTables) {g0 : Byte} {gs R : List Byte} (h : R.length = gs.length) (r d : Byte) :
    (lfsrStep F (g0 :: gs) (R ++ [r]) d).reverse =
      xorList (R.reverse ++ [0]) (scale F (r ^^^ d) (g0 :: gs).reverse) := by
  have hlen : (0 :: R).length = (scale F (r ^^^ d) (g0 :: gs)).length := by simp [scale, h]
  rw [lfsrStep_concat F h, xorList_reverse hlen, List.reverse_cons, scale_reverse]

/-- A step in highest-power-first order: the register times `x`, plus the feedback times the monic generator, has the
data element as its leading coefficient and the new register below it (R161, R169). -/
theorem FieldLegal.cons_reverse_lfsrStep {F : FieldTables} (hF : FieldLegal F) {g R : List Byte}
    (h : R.length = g.length) (d : Byte) :
    d :: (lfsrStep F g R d).reverse = xorList (R.reverse ++ [0]) (scale F (feedback R d) (monic g)) := by
  cases g with
  | nil =>
    obtain rfl := List.eq_nil_of_length_eq_zero h
    have hd : feedback [] d = d := BitVec.zero_xor
    rw [hd, List.reverse_nil, List.nil_append, monic, List.reverse_nil, scale_cons, xorList_cons, hF.gfmul_one]
    exact congrArg ([·]) BitVec.zero_xor.symm
  | cons g0 gs =>
    obtain rfl | ⟨R, r, rfl⟩ := List.eq_nil_or_concat' R
    · cases h
    have hlen : R.length = gs.length := by simpa using h
    have hd : r ^^^ gfmul F (r ^^^ d) 1 = d := by
      rw [hF.gfmul_one, ← BitVec.xor_assoc, BitVec.xor_self, BitVec.zero_xor]
    rw [lfsrStep_reverse F hlen, feedback_concat, List.reverse_concat, List.cons_append, monic, scale_cons,
      xorList_cons, hd]

theorem eccOf_length (F : FieldTables) (g ds : List Byte) : (eccOf F g ds).length = g.length := by
  rw [eccOf, List.length_reverse, remainder_length]

theorem remainder_concat (F : FieldTables) (g ds : List Byte) (d : Byte) :
    remainder F g (ds ++ [d]) = lfsrStep F g (remainder F g ds) d := List.foldl_concat ..

/-- Data followed by its error codewords vanishes where the generator does: each further data element multiplies the
codeword so far by `x` and adds a multiple of the generator (R169). -/
theorem FieldLegal.evalPoly_append_eccOf {F : FieldTables} (hF : FieldLegal F) {g : List Byte} {x : Byte}
    (hroot : evalPoly F (monic g) x = 0) (ds : List Byte) : evalPoly F (ds ++ eccOf F g ds) x = 0 := by
  induction ds using List.reverseRecOn with
  | nil => exact (congrArg (evalPoly F · x) List.reverse_replicate).trans (evalPoly_replicate_zero ..)
  | append_singleton ds d ih =>
    have hlen : (remainder F g ds).length = g.length := remainder_length ..
    have hlead : evalPoly F ds x = evalPoly F ds x ^^^ evalPoly F [] x := BitVec.xor_zero.symm
    have hlen' : ((remainder F g ds).reverse ++ [0]).length =
        (scale F (feedback (remainder F g ds) d) (monic g)).length := by simp [scale, monic]
    rw [eccOf] at ih
    rw [eccOf, remainder_concat, List.append_assoc, List.singleton_append, hF.cons_reverse_lfsrStep hlen,
      hF.evalPoly_append_xorList hlead hlen', ← List.append_assoc, evalPoly_concat, ih, List.nil_append,
      hF.evalPoly_scale, hroot, zero_gfmul, gfmul_zero]
    rfl

/-! ### Dividing by a root -/

/-- The values at `r` of a coefficient list, lowest power first, and of its tails: without the first value these are the
coefficients of its quotient by `x - r`. -/
def suffixValues (F : FieldTables) (r : Byte) : List Byte → List Byte
  | [] => []
  | c :: cs => evalPoly F (c :: cs).reverse r :: suffixValues F r cs

/-- The leading coefficient of a quotient is that of the polynomial. -/
theorem suffixValues_concat (F : FieldTables) (r : Byte) (cs : List Byte) (c : Byte) :
    ∃ hs, suffixValues F r (cs ++ [c]) = hs ++ [c] ∧ hs.length = cs.length := by
  induction cs with
  | nil => exact ⟨[], congrArg ([·]) (evalPoly_singleton F c r), rfl⟩
  | cons d cs ih =>
    obtain ⟨hs, h, hlen⟩ := ih
    exact ⟨evalPoly F (d :: cs ++ [c]).reverse r :: hs, congrArg (_ :: ·) h, congrArg (· + 1) hlen⟩

/-- Coefficient by coefficient, each value is `r` times the next and the coefficient between them. -/
theorem xorList_suffixValues (F : FieldTables) (r v : Byte) (cs : List Byte) :
    xorList (v :: suffixValues F r cs) ((suffixValues F r cs).map (fun c => gfmul F c r) ++ [0]) =
      (v ^^^ gfmul F (evalPoly F cs.reverse r) r) :: cs := by
  induction cs generalizing v with
  | nil => exact congrArg ([v ^^^ ·]) (zero_gfmul F r).symm
  | cons c cs ih =>
    rw [suffixValues, List.map_cons, List.cons_append, xorList_cons, ih, evalPoly_reverse_cons, BitVec.xor_comm _ c,
      BitVec.xor_assoc, BitVec.xor_self, BitVec.xor_zero]

/-- A polynomial that vanishes at `r` is its quotient times `x - r`. -/
theorem timesRoot_suffixValues {F : FieldTables} {r c : Byte} {cs : List Byte}
    (h : evalPoly F (c :: cs).reverse r = 0) : timesRoot F (suffixValues F r cs) r = c :: cs := by
  rw [evalPoly_reverse_cons] at h
  rw [timesRoot, xorList_suffixValues, BitVec.xor_eq_zero_iff.1 h]
  exact congrArg (· :: cs) BitVec.zero_xor

/-! ### The construction of R146 -/

theorem generatorPoly_succ (F : FieldTables) (n : Nat) :
    generatorPoly F (n + 1) = timesRoot F (generatorPoly F n) (alogOf F (n + 1)) := by
  simp only [generatorPoly, List.range_succ, List.foldl_concat]

section
variable {F : FieldTables} (hF : FieldLegal F)
include hF

theorem FieldLegal.alogOf_injective {i j : Nat} (hi : i < 255) (hj : j < 255) (h : alogOf F i = alogOf F j) :
    i = j := by
  have hlt : i < F.alog.length := hF.alogOnce.1.symm ▸ hi
  exact (List.getElem?_inj hlt hF.alogOnce.2.1).1 (by rw [hF.getElem?_alog hi, hF.getElem?_alog hj, h])

theorem FieldLegal.evalPoly_timesRoot (g : List Byte) (r x : Byte) :
    evalPoly F (timesRoot F g r).reverse x = gfmul F (evalPoly F g.reverse x) (x ^^^ r) := by
  have hlen : (0 :: g).length = (scale F r g ++ [0]).length := by simp [scale]
  have hscale : g.map (fun c => gfmul F c r) = scale F r g := List.map_congr_left fun c _ => hF.gfmul_comm c r
  have hrev : (timesRoot F g r).reverse = xorList (g.reverse ++ [0]) (0 :: scale F r g.reverse) := by
    rw [timesRoot, hscale, xorList_reverse hlen, List.reverse_cons, List.reverse_concat, scale_reverse]
  rw [hrev, hF.evalPoly_xorList (by simp [scale]), evalPoly_concat, evalPoly_zero_cons, hF.evalPoly_scale, hF.gfmul_xor,
    hF.gfmul_comm r]
  exact congrArg (· ^^^ _) BitVec.xor_zero

/-- A monic polynomial of degree `n` that vanishes at `α^1, ..., α^n` is their product of R146. -/
theorem FieldLegal.eq_generatorPoly {n : Nat} (hn : n < 255) {cs : List Byte} (hlen : cs.length = n)
    (hroots : ∀ i, 1 ≤ i → i ≤ n → evalPoly F (cs ++ [1]).reverse (alogOf F i) = 0) :
    cs ++ [1] = generatorPoly F n := by
  induction n generalizing cs with
  | zero =>
    obtain rfl := List.eq_nil_of_length_eq_zero hlen
    rfl
  | succ n ih =>
    obtain ⟨c, cs, rfl⟩ := List.exists_cons_of_length_eq_add_one hlen
    obtain ⟨hs, hq, hlen'⟩ := suffixValues_concat F (alogOf F (n + 1)) cs 1
    have hprod := timesRoot_suffixValues (hroots (n + 1) (by omega) le_rfl)
    rw [List.append_eq, hq] at hprod
    have hroots' (i : Nat) (h1 : 1 ≤ i) (hi : i ≤ n) : evalPoly F (hs ++ [1]).reverse (alogOf F i) = 0 := by
      have hzero := hroots i h1 (by omega)
      rw [List.cons_append, ← hprod, hF.evalPoly_timesRoot, hF.gfmul_eq_zero_iff] at hzero
      refine hzero.resolve_right fun h => ?_
      have := hF.alogOf_injective (by omega) hn (BitVec.xor_eq_zero_iff.1 h)
      omega
    rw [generatorPoly_succ, ← ih (by omega) (by simpa [hlen'] using hlen) hroots', hprod]
    rfl

end

/-- Settles O20: the supplied catalog has the roots of R148, which only the constructed polynomial has. -/
theorem catalogIsConstructed : Obligations.CatalogIsConstructed := by
  intro n hn
  have hlen := coefficients_length defaultGen_legal hn
  have hlt : n < 255 := Nat.lt_of_le_of_lt (genLen_le hn) (by decide)
  have hprod := defaultField_legal.eq_generatorPoly hlt hlen fun i h1 hi => by
    rw [List.reverse_concat]
    exact defaultCatalog_checked.roots n hn i h1 hi
  rw [generatorEntry, ← hprod, List.take_left' hlen]

end Sys2Proof.Machine
end

section
/-! PROOFS. `ENCODE` of a single block (spec/44_symbol_encode.md R184): the buffer is the data, its error codewords and
zeros, so what it starts with is a Reed-Solomon codeword (spec/43_block_ecc.md R169). -/

namespace Sys2Proof.Machine

open Sys2Proof.Config

theorem runSteps_of_single (P : Params) {d : Desc} (hN : d.nblk = 1) (w : Work) :
    d.runSteps P w = runBlock P 0 d.dcap.toNat d.dcap.toNat d.errcw.toNat 1 w := if_pos hN

theorem Desc.Accepted.errcw_mem {P : Params} {d : Desc} (ha : d.Accepted P) (hN : d.nblk = 1) :
    d.errcw.toNat ∈ genLen := by
  simpa only [Desc.eccLength, if_pos hN] using ha.length

/-- At stride 1 from index 0 the data of the grown buffer is the buffer before. -/
theorem blockElements_growTo (m : Memory) (c : Nat) : blockElements (m.growTo c) 0 m.length 1 = m := by
  have hload : ∀ t ∈ List.range m.length, (m.growTo c).load (stridedIndex 0 1 t) = m.load t := fun t ht => by
    rw [stridedIndex, Nat.zero_add, Nat.mul_one, Memory.load, read_growTo_old (List.mem_range.1 ht), Memory.load]
  rw [blockElements, List.map_congr_left hload, map_load_range]

theorem read_append_add (m m' : Memory) (k : Nat) : Memory.read (m ++ m') (m.length + k) = m'[k]? := by
  rw [Memory.read, List.getElem?_append_right (Nat.le_add_right ..), Nat.add_sub_cancel_left]

/-- A block computed at stride 1 on a buffer grown to `c` bytes: data, error codewords, zeros (R184). -/
theorem runBlock_growTo {P : Params} (hG : GenLegal P.gen) {n c : Nat} (hn : n ∈ genLen) {m : Memory} {R : List Byte}
    (hc : m.length + n ≤ c) :
    (runBlock P 0 m.length m.length n 1 { buf := m.growTo c, lfsr := R }).buf =
      m ++ eccOf P.field (coefficients P n) m ++ List.replicate (c - m.length - n) 0 := by
  have hecc : (eccOf P.field (coefficients P n) m).length = n :=
    (eccOf_length ..).trans (coefficients_length hG hn)
  have hindex (k : Nat) : stridedIndex m.length 1 k = m.length + k := by rw [stridedIndex, Nat.mul_one]
  have hgrow : (m.growTo c).length = c := growTo_length (by omega)
  rw [List.append_assoc]
  refine memory_ext fun a => ?_
  rcases Nat.lt_or_ge a m.length with ha | ha
  · rw [read_runBlock_below P _ ha, read_growTo_old ha, Memory.read, Memory.read, List.getElem?_append_left ha]
  obtain ⟨k, rfl⟩ := Nat.exists_eq_add_of_le ha
  rw [read_append_add, ← hindex]
  rcases Nat.lt_or_ge k n with hk | hk
  · rw [read_runBlock_ecc hG hn Nat.one_pos hk (by rw [hindex, hgrow]; omega), blockElements_growTo,
      List.getElem?_append_left (hecc.symm ▸ hk)]
  · have hother : ∀ i < n, stridedIndex m.length 1 k ≠ stridedIndex m.length 1 i := fun i hi => by
      rw [hindex, hindex]
      omega
    rw [read_runBlock_other hG hn hother, hindex, Memory.growTo, read_append_add,
      List.getElem?_append_right (hecc.symm ▸ hk), hecc, List.getElem?_replicate, List.getElem?_replicate]
    exact if_congr (by omega) rfl rfl

/-- The buffer after `ENCODE` of a single block (R184). -/
theorem buf_of_exec_encode_single {s t : State} (hs : s.fault = false) (hlen : s.buf.length = s.desc.dcap.toNat)
    (ha : s.desc.Accepted Rom.defaults) (hN : s.desc.nblk = 1) (h : exec .encode s = .next t) :
    t.buf = s.buf ++ eccOf Rom.defaults.field (coefficients Rom.defaults s.desc.errcw.toNat) s.buf ++
      List.replicate (s.desc.cwcnt.toNat - s.desc.dcap.toNat - s.desc.errcw.toNat) 0 := by
  have hfits := ha.single ((nblk_eq_one_iff _).1 hN)
  rw [exec_encode_of_accepted hs hlen ha, runSteps_of_single _ hN] at h
  cases h
  rw [← hlen] at hfits ⊢
  exact runBlock_growTo defaultGen_legal (ha.errcw_mem hN) hfits

/-- Settles O37: the first `DCAP + ERRCW` bytes are the data and its error codewords, and the roots of R148 are roots of
the entry. -/
theorem encodedSymbolIsCodeword : Obligations.EncodedSymbolIsCodeword := by
  intro s t hs hlen ha hN h i h1 hi
  have hE := ha.errcw_mem hN
  have hcodeword : (s.buf ++ eccOf Rom.defaults.field (coefficients Rom.defaults s.desc.errcw.toNat) s.buf).length =
      s.desc.dcap.toNat + s.desc.errcw.toNat := by
    rw [List.length_append, hlen, eccOf_length, coefficients_length defaultGen_legal hE]
  rw [buf_of_exec_encode_single hs hlen ha hN h, List.take_left' hcodeword]
  exact defaultField_legal.evalPoly_append_eccOf (defaultCatalog_checked.roots _ hE i h1 hi) s.buf

end Sys2Proof.Machine
end

section
/-! PROOFS. The shift register (spec/43_block_ecc.md R161) as addition of polynomials: a step adds the register
shifted up and the feedback times the entry. From this one equation come the remainder, the re-encoding and the
linearity of R169. -/

namespace Sys2Proof.Machine

open Sys2Proof.Config

/-! ### Addition of coefficient lists -/

theorem xorList_comm (as bs : List Byte) : xorList as bs = xorList bs as := List.zipWith_comm_of_comm BitVec.xor_comm

theorem xorList_assoc (as bs cs : List Byte) : xorList (xorList as bs) cs = xorList as (xorList bs cs) := by
  induction as generalizing bs cs with
  | nil => rfl
  | cons a as ih =>
    cases bs with
    | nil => rfl
    | cons b bs =>
      cases cs with
      | nil => rfl
      | cons c cs => simp only [xorList_cons, BitVec.xor_assoc, ih]

theorem xorList_left_comm (as bs cs : List Byte) : xorList as (xorList bs cs) = xorList bs (xorList as cs) := by
  rw [← xorList_assoc, xorList_comm as, xorList_assoc]

theorem xorList_cancel_left {as bs : List Byte} (h : as.length = bs.length) : xorList as (xorList as bs) = bs := by
  induction as generalizing bs with
  | nil => exact (List.eq_nil_of_length_eq_zero h.symm).symm
  | cons a as ih =>
    obtain ⟨b, bs, rfl⟩ := List.exists_cons_of_length_eq_add_one h.symm
    rw [xorList_cons, xorList_cons, ih (Nat.succ.inj h), ← BitVec.xor_assoc, BitVec.xor_self, BitVec.zero_xor]

/-- A sum ends with its shorter summand, so adding `n` zeros keeps the first `n` coefficients. -/
theorem xorList_replicate_zero (as : List Byte) (n : Nat) : xorList as (List.replicate n 0) = as.take n := by
  induction as generalizing n with
  | nil => exact List.take_nil.symm
  | cons a as ih =>
    cases n with
    | zero => rfl
    | succ n =>
      rw [List.replicate_succ, xorList_cons, ih, List.take_succ_cons]
      exact congrArg (· :: _) BitVec.xor_zero

theorem xorList_append {as bs cs ds : List Byte} (h : as.length = bs.length) :
    xorList (as ++ cs) (bs ++ ds) = xorList as bs ++ xorList cs ds := List.zipWith_append h

theorem getElem?_xorList {as bs : List Byte} {k : Nat} {a b : Byte} (ha : as[k]? = some a) (hb : bs[k]? = some b) :
    (xorList as bs)[k]? = some (a ^^^ b) :=
  List.getElem?_zipWith_eq_some.2 ⟨a, b, ha, hb, rfl⟩

theorem getD_xorList {as bs : List Byte} (h : as.length = bs.length) (k : Nat) :
    (xorList as bs).getD k 0 = as.getD k 0 ^^^ bs.getD k 0 := by
  rcases Nat.lt_or_ge k as.length with hk | hk
  · have hxor : k < (xorList as bs).length := by simpa [xorList, ← h] using hk
    rw [List.getD_eq_getElem _ _ hxor, List.getD_eq_getElem _ _ hk, List.getD_eq_getElem _ _ (h ▸ hk)]
    exact List.getElem_zipWith
  · have hxor : (xorList as bs).length ≤ k := by simpa [xorList, ← h] using hk
    rw [List.getD_eq_default _ _ hxor, List.getD_eq_default _ _ hk, List.getD_eq_default _ _ (h ▸ hk)]
    rfl

theorem zero_scale (F : FieldTables) (cs : List Byte) : scale F 0 cs = List.replicate cs.length 0 := by
  rw [scale, funext (zero_gfmul F), List.map_const']

theorem FieldLegal.one_scale {F : FieldTables} (hF : FieldLegal F) (cs : List Byte) : scale F 1 cs = cs := by
  rw [scale, funext hF.one_gfmul, List.map_id']

theorem FieldLegal.xor_scale {F : FieldTables} (hF : FieldLegal F) (a b : Byte) (cs : List Byte) :
    scale F (a ^^^ b) cs = xorList (scale F a cs) (scale F b cs) := by
  rw [scale, funext (hF.xor_gfmul a b), scale, scale, xorList, List.zipWith_map, List.zipWith_self]

/-! ### One step -/

/-- A step adds the register shifted up, whose last byte falls out, and the feedback times the entry (R161). -/
theorem lfsrStep_eq_xorList (F : FieldTables) (g R : List Byte) (d : Byte) :
    lfsrStep F g R d = xorList (0 :: R) (scale F (feedback R d) g) := by
  cases g with
  | nil => rfl
  | cons g0 gs =>
    rw [lfsrStep, scale_cons, xorList_cons, scale, xorList, List.zipWith_map_right]
    exact congrArg (· :: _) BitVec.zero_xor.symm

/-- Settles O21: position `k` of the sum, read off both summands. -/
theorem shiftRegisterStep : Obligations.ShiftRegisterStep := by
  intro F g R d n hn hg hR
  have hfb : feedback R d = R.getD (n - 1) 0 ^^^ d := by rw [feedback, hR]
  have hscale {k : Nat} (hk : k < n) : (scale F (feedback R d) g)[k]? = some (gfmul F (feedback R d) (g.getD k 0)) := by
    rw [scale, List.getElem?_map, List.getElem?_eq_getElem (hg ▸ hk), List.getD_eq_getElem _ _ (hg ▸ hk)]
    rfl
  rw [← hfb]
  refine ⟨(lfsrStep_length (hR.trans hg.symm) d).trans hg, ?_, fun k h1 hk => ?_⟩
  · rw [lfsrStep_eq_xorList, getElem?_xorList List.getElem?_cons_zero (hscale hn)]
    exact congrArg some BitVec.zero_xor
  · obtain ⟨k, rfl⟩ := Nat.exists_eq_add_of_le' h1
    have hshift : (0 :: R)[k + 1]? = some (R.getD k 0) := by
      rw [List.getElem?_cons_succ, List.getD_eq_getElem _ _ (by omega), List.getElem?_eq_getElem]
    rw [lfsrStep_eq_xorList, getElem?_xorList hshift (hscale hk), Nat.add_sub_cancel]

/-- When the data element is the last byte of the register the feedback is 0 and the step is a pure shift (R161). -/
theorem lfsrStep_last (F : FieldTables) {g R : List Byte} (h : R.length + 1 = g.length) (r : Byte) :
    lfsrStep F g (R ++ [r]) r = 0 :: R := by
  have hfb : feedback (R ++ [r]) r = 0 := (feedback_concat R r r).trans BitVec.xor_self
  rw [lfsrStep_eq_xorList, hfb, zero_scale, xorList_replicate_zero, ← h, List.take_succ_cons, List.take_left]

/-- From the zero register the feedback is the data element itself. -/
theorem lfsrStep_replicate_zero (F : FieldTables) (g : List Byte) (d : Byte) :
    lfsrStep F g (List.replicate g.length 0) d = scale F d g := by
  have hfb : feedback (List.replicate g.length 0) d = d := by
    rw [feedback, List.getD_eq_getElem?_getD, List.getElem?_getD_replicate_default_eq]
    exact BitVec.zero_xor
  rw [lfsrStep_eq_xorList, hfb, ← List.replicate_succ, xorList_comm, xorList_replicate_zero]
  exact List.take_of_length_le (by simp [scale])

/-! ### Re-encoding -/

/-- Fed with its own bytes, last byte first, the register is shifted out (R169). -/
theorem absorb_reverse (F : FieldTables) {g : List Byte} (R : List Byte) {z : Nat} (h : z + R.length = g.length) :
    absorb F g (List.replicate z 0 ++ R) R.reverse = List.replicate g.length 0 := by
  induction R using List.reverseRecOn generalizing z with
  | nil => simpa [absorb] using h
  | append_singleton R r ih =>
    rw [List.length_append, List.length_singleton] at h
    have hlen : (List.replicate z 0 ++ R).length + 1 = g.length := by simpa [Nat.add_assoc] using h
    rw [List.reverse_concat, absorb, List.foldl_cons, ← List.append_assoc, lfsrStep_last F hlen]
    exact ih (z := z + 1) (by omega)

/-- Settles O24: the error codewords are the bytes of the register, last byte first. -/
theorem reencodingGivesZero : Obligations.ReencodingGivesZero := fun F g ds =>
  List.foldl_append.trans (absorb_reverse F (remainder F g ds) (z := 0) (by simp))

/-! ### Zero data and a single one -/

theorem remainder_replicate_zero (F : FieldTables) (g : List Byte) (z : Nat) :
    remainder F g (List.replicate z 0) = List.replicate g.length 0 := by
  induction z with
  | zero => rfl
  | succ z ih => rw [List.replicate_succ', remainder_concat, ih, lfsrStep_replicate_zero, zero_scale]

/-- Settles O26: zeros leave the register all zero, and from there a 1 leaves once the entry. -/
theorem zeroAndUnitData : Obligations.ZeroAndUnitData := fun F hF g z _ =>
  ⟨by rw [eccOf, remainder_replicate_zero, List.reverse_replicate],
    by rw [eccOf, remainder_concat, remainder_replicate_zero, lfsrStep_replicate_zero, hF.one_scale]⟩

/-! ### Linearity -/

theorem feedback_xor {R S : List Byte} (h : R.length = S.length) (d e : Byte) :
    feedback (xorList R S) (d ^^^ e) = feedback R d ^^^ feedback S e := by
  have hlen : (xorList R S).length = R.length := by simp [xorList, h]
  rw [feedback, hlen, getD_xorList h, feedback, feedback, h]
  ac_rfl

section
variable {F : FieldTables} (hF : FieldLegal F)
include hF

theorem FieldLegal.lfsrStep_xor (g : List Byte) {R S : List Byte} (h : R.length = S.length) (d e : Byte) :
    lfsrStep F g (xorList R S) (d ^^^ e) = xorList (lfsrStep F g R d) (lfsrStep F g S e) := by
  have hshift : (0 :: xorList R S : List Byte) = xorList (0 :: R) (0 :: S) := rfl
  simp only [lfsrStep_eq_xorList, feedback_xor h, hF.xor_scale, hshift, xorList_assoc, xorList_left_comm (0 :: S)]

theorem FieldLegal.absorb_xor {g ds es : List Byte} (hlen : ds.length = es.length) {R S : List Byte}
    (hR : R.length = g.length) (hS : S.length = g.length) :
    absorb F g (xorList R S) (xorList ds es) = xorList (absorb F g R ds) (absorb F g S es) := by
  induction ds generalizing es R S with
  | nil =>
    obtain rfl := List.eq_nil_of_length_eq_zero hlen.symm
    rfl
  | cons d ds ih =>
    obtain ⟨e, es, rfl⟩ := List.exists_cons_of_length_eq_add_one hlen.symm
    have hstep := hF.lfsrStep_xor g (hR.trans hS.symm) d e
    exact (congrArg (absorb F g · (xorList ds es)) hstep).trans
      (ih (Nat.succ.inj hlen) (lfsrStep_length hR d) (lfsrStep_length hS e))

end

/-- Settles O25: the zero register is the sum of two zero registers, and every step respects sums. -/
theorem errorCodewordsAreLinear : Obligations.ErrorCodewordsAreLinear := by
  intro F hF g ds es hlen
  have hzero : xorList (List.replicate g.length 0) (List.replicate g.length 0) = List.replicate g.length 0 := by
    rw [xorList_replicate_zero, List.take_replicate, Nat.min_self]
  have hsum : remainder F g (xorList ds es) = xorList (remainder F g ds) (remainder F g es) := by
    rw [remainder, ← hzero]
    exact hF.absorb_xor hlen List.length_replicate List.length_replicate
  rw [eccOf, hsum]
  exact xorList_reverse ((remainder_length ..).trans (remainder_length ..).symm)

/-! ### The remainder -/

theorem quotient_length (F : FieldTables) (g R ds : List Byte) : (quotient F g R ds).length = ds.length := by
  induction ds generalizing R with
  | nil => rfl
  | cons d ds ih => exact congrArg (· + 1) (ih _)

/-- `cons_reverse_lfsrStep` with `z` coefficients more. -/
theorem FieldLegal.cons_reverse_lfsrStep_append {F : FieldTables} (hF : FieldLegal F) {g R : List Byte}
    (h : R.length = g.length) (d : Byte) (z : Nat) :
    d :: ((lfsrStep F g R d).reverse ++ List.replicate z 0) =
      xorList (R.reverse ++ List.replicate (z + 1) 0) (scale F (feedback R d) (monic g) ++ List.replicate z 0) := by
  have hlen : (R.reverse ++ [0]).length = (scale F (feedback R d) (monic g)).length := by simp [scale, monic, h]
  rw [List.replicate_succ, List.append_cons R.reverse, xorList_append hlen, ← hF.cons_reverse_lfsrStep h,
    xorList_replicate_zero, List.take_replicate, Nat.min_self, List.cons_append]

/-- The invariant of R169 from any register on: with `L` elements of data, the feedback bytes times the monic generator
and the register left make up `x^n D(x) + x^L R(x)`. -/
theorem FieldLegal.polyProduct_quotient {F : FieldTables} (hF : FieldLegal F) {g R : List Byte}
    (h : R.length = g.length) (ds : List Byte) :
    xorList (polyProduct F (quotient F g R ds) (monic g)) (List.replicate ds.length 0 ++ (absorb F g R ds).reverse) =
      xorList (ds ++ List.replicate g.length 0) (R.reverse ++ List.replicate ds.length 0) := by
  induction ds generalizing R with
  | nil => simp [quotient, polyProduct, monic, absorb]
  | cons d ds ih =>
    have hstep := hF.cons_reverse_lfsrStep_append h d ds.length
    have hlen : (scale F (feedback R d) (monic g) ++ List.replicate ds.length 0).length =
        (xorList (d :: (ds ++ List.replicate g.length 0)) (R.reverse ++ List.replicate (ds.length + 1) 0)).length := by
      simp [scale, monic, xorList, h]
      omega
    rw [quotient, polyProduct, quotient_length]
    generalize scale F (feedback R d) (monic g) ++ List.replicate ds.length 0 = S at hstep hlen ⊢
    calc xorList (xorList S (0 :: polyProduct F (quotient F g (lfsrStep F g R d) ds) (monic g)))
          (List.replicate (ds.length + 1) 0 ++ (absorb F g (lfsrStep F g R d) ds).reverse)
      _ = xorList S (0 :: xorList (ds ++ List.replicate g.length 0)
            ((lfsrStep F g R d).reverse ++ List.replicate ds.length 0)) := by
        rw [xorList_assoc, List.replicate_succ, List.cons_append, xorList_cons, ih (lfsrStep_length h d)]
        rfl
      _ = xorList S (xorList (d :: (ds ++ List.replicate g.length 0))
            (d :: ((lfsrStep F g R d).reverse ++ List.replicate ds.length 0))) := by
        rw [xorList_cons, BitVec.xor_self]
        rfl
      _ = xorList S (xorList S (xorList (d :: (ds ++ List.replicate g.length 0))
            (R.reverse ++ List.replicate (ds.length + 1) 0))) := by
        rw [hstep, xorList_comm _ S, xorList_left_comm _ S]
      _ = xorList (d :: (ds ++ List.replicate g.length 0)) (R.reverse ++ List.replicate (ds.length + 1) 0) :=
        xorList_cancel_left hlen

/-- Settles O22: the quotient is the list of feedback bytes, and the register starts from zero. -/
theorem registerHoldsRemainder : Obligations.RegisterHoldsRemainder := by
  intro F hF g ds
  refine ⟨remainder_length .., _, quotient_length F g (List.replicate g.length 0) ds, ?_⟩
  refine (hF.polyProduct_quotient List.length_replicate ds).trans ?_
  rw [List.reverse_replicate, List.replicate_append_replicate, xorList_replicate_zero]
  exact List.take_of_length_le (by simp [Nat.add_comm])

/-- Settles O23: every step keeps the roots of the generator. -/
theorem codewordVanishesAtRoots : Obligations.CodewordVanishesAtRoots := fun _ hF _ ds _ hroot =>
  hF.evalPoly_append_eccOf hroot ds

end Sys2Proof.Machine
end

section
/-! PROOFS. The block computation and `ECCBLK` (spec/43_block_ecc.md R162 to R166): what the accepted operands read and
write, the four checks in their order, and the completed command. -/

namespace Sys2Proof.Machine

open Sys2Proof.Config Sys2Proof.Claims

/-! ### The block computation -/

theorem blockElements_length (m : Memory) (co cl st : Nat) : (blockElements m co cl st).length = cl := by
  rw [blockElements, List.length_map, List.length_range]

/-- Check 3 of R165 puts every data position in the buffer, so element `j` is the byte there. -/
theorem BlockParams.Accepted.read_data {p : BlockParams} {m : Memory} (ha : p.Accepted m.length) {j : Nat}
    (hj : j < p.codeLen.toNat) :
    m.read (stridedIndex p.codeOff.toNat p.stride.toNat j) =
      (blockElements m p.codeOff.toNat p.codeLen.toNat p.stride.toNat)[j]? := by
  have hlt : stridedIndex p.codeOff.toNat p.stride.toNat j < m.length :=
    position_lt (ha.data (Nat.zero_lt_of_lt hj)) hj
  rw [read_eq_load hlt, blockElements, List.getElem?_map, List.getElem?_range hj, Option.map_some]

/-- The data elements are the bytes at the data positions and nothing else (R170). -/
theorem blockElements_congr {m m' : Memory} {co co' cl st st' : Nat}
    (h : ∀ j < cl, m.read (stridedIndex co st j) = m'.read (stridedIndex co' st' j)) :
    blockElements m co cl st = blockElements m' co' cl st' :=
  List.map_congr_left fun j hj => congrArg (·.getD 0) (h j (List.mem_range.1 hj))

/-- The block computation on the operands of `ECCBLK` leaves error codeword `i` at ECC position `i` (R166). -/
theorem BlockParams.Accepted.read_ecc {P : Params} (hG : GenLegal P.gen) {p : BlockParams} {w : Work}
    (ha : p.Accepted w.buf.length) {i : Nat} (hi : i < p.eccLen.toNat) :
    (runBlock P p.codeOff.toNat p.codeLen.toNat p.eccOff.toNat p.eccLen.toNat p.stride.toNat w).buf.read
        (stridedIndex p.eccOff.toNat p.stride.toNat i) =
      (eccOf P.field (coefficients P p.eccLen.toNat)
        (blockElements w.buf p.codeOff.toNat p.codeLen.toNat p.stride.toNat))[i]? :=
  read_runBlock_ecc hG ha.length ha.stride hi (position_lt ha.ecc hi)

theorem getElem?_eccOf (F : FieldTables) {g : List Byte} (ds : List Byte) {i : Nat} (hi : i < g.length) :
    (eccOf F g ds)[i]? = (remainder F g ds)[g.length - 1 - i]? := by
  rw [eccOf, List.getElem?_reverse (by rwa [remainder_length]), remainder_length]

/-- Settles O27: the entry is the one the lookup finds, and each index is read by the rule for its kind. -/
theorem blockComputation : Obligations.BlockComputation := by
  intro P m p hG ha
  have hlen := coefficients_length hG ha.length
  refine ⟨blockElements m p.codeOff.toNat p.codeLen.toNat p.stride.toNat, coefficients P p.eccLen.toNat, _, _, rfl,
    blockElements_length .., fun t ht => ?_, coefficients_mem hG ha.length, hlen, rfl, remainder_length ..,
    computeBlock_length .., fun i hi => ?_, fun a hother => ?_⟩
  · rw [blockElements_length] at ht
    exact ha.read_data ht
  · exact (BlockParams.Accepted.read_ecc hG (w := { buf := m, lfsr := [] }) ha (hlen ▸ hi)).trans
      (getElem?_eccOf P.field _ hi)
  · rw [hlen] at hother
    exact read_runBlock_other hG ha.length (w := { buf := m, lfsr := [] }) hother

/-! ### The checks -/

theorem exec_eccblk_of_clear {s : State} (hs : s.fault = false) :
    exec .eccblk s = .next (finishWork (blockEcc Rom.defaults s.param s.work) s) := by
  rw [exec_eccblk, eccblkCommand, unlessFaulted_of_clear hs]

theorem exec_eccblk_of_fault {s : State} {c : FaultCause} (hs : s.fault = false)
    (h : blockEcc Rom.defaults s.param s.work = .fault c) : exec .eccblk s = .next (faulted c.code s) := by
  rw [exec_eccblk_of_clear hs, h, finishWork_fault, takeFault_eq_faulted]

section
variable {P : Params} {p : BlockParams} {w : Work} (hn : p.eccLen.toNat ∈ genLen)
include hn

/-- The second check of R165. -/
theorem blockEcc_of_zeroStride (hst : p.stride = 0) : blockEcc P p w = .fault .operandRange := by
  rw [blockEcc, if_neg (mt (findGenerator_eq_none_iff _).1 (not_not.2 hn)), if_pos hst]

/-- The third check of R165. -/
theorem blockEcc_of_dataPastEnd (hst : p.stride ≠ 0) (hpos : 0 < p.codeLen.toNat)
    (hpast : w.buf.length ≤ p.codeOff.toNat + (p.codeLen.toNat - 1) * p.stride.toNat) :
    blockEcc P p w = .fault .indexRange := by
  rw [blockEcc, if_neg (mt (findGenerator_eq_none_iff _).1 (not_not.2 hn)), if_neg hst,
    if_pos ⟨hpos, (runsPast_iff ..).2 hpast⟩]

/-- The fourth check of R165. -/
theorem blockEcc_of_eccPastEnd (hst : p.stride ≠ 0)
    (hdata : p.codeLen.toNat = 0 ∨ p.codeOff.toNat + (p.codeLen.toNat - 1) * p.stride.toNat < w.buf.length)
    (hpast : w.buf.length ≤ p.eccOff.toNat + (p.eccLen.toNat - 1) * p.stride.toNat) :
    blockEcc P p w = .fault .indexRange := by
  have hpass : ¬(0 < p.codeLen.toNat ∧
      runsPast p.codeOff.toNat p.stride.toNat p.codeLen.toNat w.buf.length = true) := by
    rw [runsPast_iff]
    omega
  rw [blockEcc, if_neg (mt (findGenerator_eq_none_iff _).1 (not_not.2 hn)), if_neg hst, if_neg hpass,
    if_pos ((runsPast_iff ..).2 hpast)]

end

/-- Settles O28: each check is the first to apply in its clause. -/
theorem eccblkChecks : Obligations.EccblkChecks := by
  refine fun s hs => ⟨fun hn => ?_, fun hn hst => exec_eccblk_of_fault hs (blockEcc_of_zeroStride hn hst),
    fun hn hst hpos hpast => exec_eccblk_of_fault hs (blockEcc_of_dataPastEnd hn hst hpos hpast),
    fun hn hst hdata hpast => exec_eccblk_of_fault hs (blockEcc_of_eccPastEnd hn hst hdata hpast)⟩
  rw [exec_eccblk_of_clear hs, blockEcc_of_noEntry hn, finishWork_err, raiseError_eq_unsupported]

/-! ### The completed command -/

/-- When the checks pass `ECCBLK` stores the work of the block computation (R164). -/
theorem exec_eccblk_of_accepted {s : State} (hs : s.fault = false) (ha : s.param.Accepted s.buf.length) :
    exec .eccblk s =
      .next (finishWork (.ok (runBlock Rom.defaults s.param.codeOff.toNat s.param.codeLen.toNat s.param.eccOff.toNat
        s.param.eccLen.toNat s.param.stride.toNat s.work)) s) := by
  rw [exec_eccblk_of_clear hs, blockEcc_accepted (w := s.work) ha]

/-- After `ECCBLK` ECC position `i` holds error codeword `i` (R166). -/
theorem read_ecc_of_exec_eccblk {s t : State} (hs : s.fault = false) (ha : s.param.Accepted s.buf.length)
    (h : exec .eccblk s = .next t) {i : Nat} (hi : i < s.param.eccLen.toNat) :
    t.buf.read (stridedIndex s.param.eccOff.toNat s.param.stride.toNat i) =
      (eccOf Rom.defaults.field (coefficients Rom.defaults s.param.eccLen.toNat)
        (blockElements s.buf s.param.codeOff.toNat s.param.codeLen.toNat s.param.stride.toNat))[i]? := by
  rw [exec_eccblk_of_accepted hs ha] at h
  cases h
  exact BlockParams.Accepted.read_ecc defaultGen_legal (w := s.work) ha hi

/-- Settles O29: the stored work is the buffer of the block computation and the register it leaves. -/
theorem eccblkResult : Obligations.EccblkResult := by
  intro s hs ha
  have hexec := exec_eccblk_of_accepted hs ha
  have hmem := coefficients_mem defaultGen_legal ha.length
  have hlen := coefficients_length defaultGen_legal ha.length
  refine ⟨blockElements s.buf s.param.codeOff.toNat s.param.codeLen.toNat s.param.stride.toNat, _, _, _, hexec,
    blockElements_length .., fun j hj => ?_, hmem, hlen, rfl, fun i hi => ?_, fun a hother => ?_, ?_⟩
  · rw [blockElements_length] at hj
    exact ha.read_data hj
  · exact (read_ecc_of_exec_eccblk hs ha hexec (hlen ▸ hi)).trans (getElem?_eccOf Rom.defaults.field _ hi)
  · rw [hlen] at hother
    exact read_runBlock_other defaultGen_legal ha.length (w := s.work) hother
  · rw [hlen, finishWork_ok_eq, runBlock_buf_length]
    rfl

/-- Settles O30: both commands write the error codewords of the same entry and the same data elements. -/
theorem eccblkDependsOnDataOnly : Obligations.EccblkDependsOnDataOnly := by
  intro s s' t t' hs hs' ha ha' hecc hcode hdata h h' i hi
  have hread := read_ecc_of_exec_eccblk hs ha h hi
  rw [blockElements_congr hdata, hecc, hcode] at hread
  exact hread.trans (read_ecc_of_exec_eccblk hs' ha' h' (hecc ▸ hi)).symm

end Sys2Proof.Machine
end

section
/-! PROOFS. `ENCODE` as a whole (spec/44_symbol_encode.md): the seven checks in their order (R182), the completed
command with one block or several (R181, R183 to R185), what it depends on (R187) and a second run (R190). -/

namespace Sys2Proof.Machine

open Sys2Proof.Config Sys2Proof.Claims

/-! ### The checks -/

theorem findGenerator_ne_none {n : Nat} (hn : n ∈ genLen) : findGenerator n ≠ none :=
  mt (findGenerator_eq_none_iff n).1 (not_not.2 hn)

/-- The first check of R182. -/
theorem symbolEcc_of_miscount {P : Params} {d : Desc} {w : Work} (h : w.buf.length ≠ d.dcap.toNat) :
    symbolEcc P d w = .err (.codewordCountMismatch d.dcap (lenOf w.buf.length)) := if_pos h

section
variable {P : Params} {d : Desc} {w : Work} (hlen : w.buf.length = d.dcap.toNat)
include hlen

/-- The second check of R182. -/
theorem symbolEcc_of_blockCount (hN : d.nblk.toNat = 0 ∨ P.nblkMax < d.nblk.toNat) :
    symbolEcc P d w = .fault .operandRange := by
  rw [symbolEcc, if_neg (not_not.2 hlen), if_pos hN]

variable (hN : 1 ≤ d.nblk.toNat) (hM : d.nblk.toNat ≤ P.nblkMax)
include hN hM

/-- The third check of R182. -/
theorem symbolEcc_of_noEntry (hE : d.eccLength.toNat ∉ genLen) :
    symbolEcc P d w = .err (.unsupportedRedundancyLength d.eccLength) := by
  rw [symbolEcc, if_neg (not_not.2 hlen), if_neg (by omega), if_pos ((findGenerator_eq_none_iff _).2 hE)]

variable (hE : d.eccLength.toNat ∈ genLen)
include hE

/-- The fourth check of R182. -/
theorem symbolEcc_of_shrinking (hC : d.cwcnt.toNat < d.dcap.toNat) : symbolEcc P d w = .fault .operandRange := by
  rw [symbolEcc, if_neg (not_not.2 hlen), if_neg (by omega), if_neg (findGenerator_ne_none hE), if_pos hC]

variable (hD : d.dcap.toNat ≤ d.cwcnt.toNat)
include hD

/-- The fifth check of R182. -/
theorem symbolEcc_of_overCapacity (hC : P.bufMax < d.cwcnt.toNat) : symbolEcc P d w = .fault .bufferCapacity := by
  rw [symbolEcc, if_neg (not_not.2 hlen), if_neg (by omega), if_neg (findGenerator_ne_none hE),
    if_neg (Nat.not_lt.2 hD), if_pos hC]

variable (hB : d.cwcnt.toNat ≤ P.bufMax)
include hB

/-- The sixth and the seventh check of R182, of which the number of blocks lets only one apply: both fault alike. -/
theorem symbolEcc_of_positionPastEnd
    (hpast : d.nblk = 1 ∧ d.cwcnt.toNat < d.dcap.toNat + d.errcw.toNat ∨
      d.nblk ≠ 1 ∧ ∃ b < d.nblk.toNat, d.blockRunsPast b = true) :
    symbolEcc P d w = .fault .indexRange := by
  rw [symbolEcc, if_neg (not_not.2 hlen), if_neg (by omega), if_neg (findGenerator_ne_none hE),
    if_neg (Nat.not_lt.2 hD), if_neg (Nat.not_lt.2 hB)]
  rcases hpast with hsingle | ⟨hne, b, hb, hpast⟩
  · exact if_pos hsingle
  · rw [if_neg fun h => hne h.1, if_pos ⟨hne, List.any_eq_true.2 ⟨b, List.mem_range.2 hb, hpast⟩⟩]

end

theorem errorWord_eq_mismatchResponse (d n : Len) : errorWord (.codewordCountMismatch d n) = mismatchResponse d := by
  have htop : (1#2 ++ (1#16).setWidth 6 ++ 0#8 : BitVec 16) = 0x4100#16 := by decide
  exact congrArg (· ++ d) htop

/-- `ENCODE` on a buffer of another length than the descriptor declares (R182, R190). -/
theorem exec_encode_of_miscount {s : State} (hs : s.fault = false) (h : s.buf.length ≠ s.desc.dcap.toNat) :
    exec .encode s =
      .next { s with
        status := 1, errinfo0 := s.desc.dcap, errinfo1 := s.buflen
        responses := mismatchResponse s.desc.dcap :: s.responses } := by
  rw [exec_encode_of_clear hs, symbolEcc_of_miscount (w := s.work) h, finishWork_err, raiseError_eq,
    errorWord_eq_mismatchResponse]
  rfl

theorem exec_encode_of_fault {s : State} {c : FaultCause} (hs : s.fault = false)
    (h : symbolEcc Rom.defaults s.desc s.work = .fault c) : exec .encode s = .next (faulted c.code s) := by
  rw [exec_encode_of_clear hs, h, finishWork_fault, takeFault_eq_faulted]

/-- The ECC length in force, by the number of blocks (R180). -/
theorem eccLength_eq_ite (d : Desc) : d.eccLength = if d.nblk.toNat = 1 then d.errcw else d.blkerr :=
  if_congr (nblk_eq_one_iff d) rfl rfl

/-- Settles O31: each check is the first to apply in its clause. -/
theorem encodeChecks : Obligations.EncodeChecks := by
  intro s hs
  simp only [← eccLength_eq_ite]
  refine ⟨exec_encode_of_miscount hs, fun hl hN => exec_encode_of_fault hs (symbolEcc_of_blockCount hl hN),
    fun hl hN hM hE => ?_, fun hl hN hM hE hC => exec_encode_of_fault hs (symbolEcc_of_shrinking hl hN hM hE hC),
    fun hl hN hM hE hD hC => exec_encode_of_fault hs (symbolEcc_of_overCapacity hl hN hM hE hD hC),
    fun hl hN hE hD hB hpast => ?_, fun hl hN hM hE hD hB ⟨b, hb, hpast⟩ => ?_⟩
  · rw [exec_encode_of_clear hs, symbolEcc_of_noEntry (w := s.work) hl hN hM hE, finishWork_err,
      raiseError_eq_unsupported]
  · have hM : s.desc.nblk.toNat ≤ Rom.defaults.nblkMax := hN ▸ by decide
    exact exec_encode_of_fault hs
      (symbolEcc_of_positionPastEnd hl hN.ge hM hE hD hB (.inl ⟨(nblk_eq_one_iff _).2 hN, hpast⟩))
  · have hne : s.desc.nblk ≠ 1 := mt (nblk_eq_one_iff _).1 hN.ne'
    exact exec_encode_of_fault hs
      (symbolEcc_of_positionPastEnd hl hN.le hM hE hD hB (.inr ⟨hne, b, hb, (blockRunsPast_iff _ b).2 hpast⟩))

/-! ### The completed command -/

/-- A buffer that reads like a shorter one wherever that has bytes starts with it. -/
theorem take_eq_of_read_below {m m' : Memory} (h : ∀ a < m'.length, m.read a = m'.read a) :
    m.take m'.length = m' := by
  refine memory_ext fun a => ?_
  rcases Nat.lt_or_ge a m'.length with ha | ha
  · exact (List.getElem?_take_of_lt ha).trans (h a ha)
  · exact (List.getElem?_take_eq_none ha).trans (List.getElem?_eq_none ha).symm

/-- The new length is `CWCNT` (R183). -/
theorem runSteps_grow_length (P : Params) {d : Desc} {w : Work} (h : w.buf.length ≤ d.cwcnt.toNat) :
    (d.runSteps P (d.grow w)).buf.length = d.cwcnt.toNat := (runSteps_buf_length ..).trans (growTo_length h)

/-- The steps keep the bytes of a buffer of `DCAP` bytes (R183). -/
theorem take_runSteps_grow (P : Params) {d : Desc} {w : Work} (hlen : w.buf.length = d.dcap.toNat) :
    (d.runSteps P (d.grow w)).buf.take d.dcap.toNat = w.buf := by
  rw [← hlen]
  exact take_eq_of_read_below fun a ha => (read_runSteps_below P (hlen ▸ ha) _).trans (read_growTo_old ha _)

theorem lenOf_toNat (v : Len) : lenOf v.toNat = v := by
  rw [lenOf, BitVec.ofNat_toNat, BitVec.setWidth_eq]

/-- Settles O32: the stored work is that of the three steps on the grown buffer. -/
theorem encodeCompletes : Obligations.EncodeCompletes := by
  intro s hs hlen ha
  have hgrown := runSteps_grow_length Rom.defaults (d := s.desc) (w := s.work) (hlen.trans_le ha.order)
  refine ⟨_, exec_encode_of_accepted hs hlen ha, hgrown, take_runSteps_grow Rom.defaults (w := s.work) hlen, ?_⟩
  rw [finishWork_ok_eq, hgrown, lenOf_toNat, okWord_eq_okResponse]

/-- One block more is computed on the work of the blocks before it (R185). -/
theorem runBlocks_range_succ (P : Params) (d : Desc) (b : Nat) (w : Work) :
    d.runBlocks P (List.range (b + 1)) w = d.runInterleaved P b (d.runBlocks P (List.range b) w) := by
  rw [Desc.runBlocks, List.range_succ, List.foldl_concat, Desc.runBlocks]

/-- The buffer after the first `b` block computations of `ENCODE` (R185). -/
def bufferAfterBlocks (s : State) (b : Nat) : Memory :=
  (s.desc.runBlocks Rom.defaults (List.range b) (s.desc.grow s.work)).buf

theorem bufferAfterBlocks_zero {s : State} (hlen : s.buf.length = s.desc.dcap.toNat) :
    bufferAfterBlocks s 0 = s.buf ++ List.replicate (s.desc.cwcnt.toNat - s.desc.dcap.toNat) 0 := hlen ▸ rfl

theorem bufferAfterBlocks_succ (s : State) (b : Nat) :
    bufferAfterBlocks s (b + 1) =
      computeBlock Rom.defaults (bufferAfterBlocks s b) b (s.desc.blkdata.getD b 0).toNat (s.desc.dcap.toNat + b)
        s.desc.blkerr.toNat s.desc.nblk.toNat :=
  congrArg Work.buf (runBlocks_range_succ ..)

/-- Settles O33: the buffers between the blocks are `bufferAfterBlocks`. -/
theorem encodeRunsBlocksInOrder : Obligations.EncodeRunsBlocksInOrder := by
  intro s hs hlen ha hN
  refine ⟨bufferAfterBlocks s, _, bufferAfterBlocks_zero hlen, fun b _ => bufferAfterBlocks_succ s b,
    exec_encode_of_accepted hs hlen ha, ?_⟩
  rw [runSteps_of_interleaved _ hN]
  rfl

/-- Settles O34: the entry is the one the lookup finds for `ERRCW`. -/
theorem encodeSingleBlock : Obligations.EncodeSingleBlock := fun _ _ hs hlen ha hN h =>
  have hE := ha.errcw_mem hN
  ⟨_, coefficients_mem defaultGen_legal hE, coefficients_length defaultGen_legal hE,
    buf_of_exec_encode_single hs hlen ha hN h⟩

/-! ### Two runs -/

/-- Settles O39: the two computations leave the same buffer or fail the same check, and the end of the command adds
nothing of the state but the buffer. -/
theorem encodeDependsOnBufferAndDescriptor : Obligations.EncodeDependsOnBufferAndDescriptor := by
  intro s s' t t' hs hs' hbuf hdesc h h'
  have hsame := symbolEcc_buffer_congr (w := s.work) (w' := s'.work) hbuf Rom.defaults s.desc
  have hfault : s.fault = s'.fault := hs.trans hs'.symm
  have hclear : ¬s.fault = true := hs ▸ Bool.false_ne_true
  rw [exec_encode_of_clear hs] at h
  rw [exec_encode_of_clear hs', ← hdesc] at h'
  cases h
  cases h'
  generalize symbolEcc Rom.defaults s.desc s.work = e, symbolEcc Rom.defaults s.desc s'.work = e' at hsame ⊢
  cases e <;> cases e'
  case ok.ok w w' =>
    have hw : w.buf = w'.buf := Ending.ok.inj hsame
    exact ⟨hw, hfault, congrArg (fun m : Memory => some (okWord (lenOf m.length))) hw, fun _ => ⟨rfl, rfl, rfl⟩,
      fun ht => absurd ht hclear⟩
  case err.err e e' =>
    obtain rfl : e = e' := Ending.err.inj hsame
    exact ⟨hbuf, hfault, rfl, fun _ => ⟨rfl, rfl, rfl⟩, fun ht => absurd ht hclear⟩
  case fault.fault c c' =>
    obtain rfl : c = c' := Ending.fault.inj hsame
    exact ⟨hbuf, rfl, rfl, nofun, fun _ => rfl⟩
  all_goals cases hsame

/-- Settles O40: the first run leaves `CWCNT` bytes and the descriptor, so the first check applies to the second. -/
theorem secondEncodeFailsCountCheck : Obligations.SecondEncodeFailsCountCheck := by
  intro s t hs hlen ha hne h
  obtain ⟨t', h', hgrown, -, hframe⟩ := encodeCompletes s hs hlen ha
  obtain rfl : t' = t := Host.Outcome.next.inj (h'.symm.trans h)
  have hclear : t'.fault = false := by rw [hframe, hs]
  have hdesc : t'.desc = s.desc := by rw [hframe]
  have hlength : t'.buflen = s.desc.cwcnt := by rw [State.buflen, hgrown, lenOf_toNat]
  have hmiscount : t'.buf.length ≠ t'.desc.dcap.toNat := by
    rw [hgrown, hdesc]
    exact mt BitVec.eq_of_toNat_eq hne
  rw [exec_encode_of_miscount hclear hmiscount, hdesc, hlength]

end Sys2Proof.Machine
end

section
/-! PROOFS. The host-access commands one by one (spec/45_host_access.md R200 to R204): each row of the register map is
read and written by its number, every number outside the bank faults, and the buffer commands end as their checks
decide. -/

namespace Sys2Proof.Machine

open Sys2Proof.Config Sys2Proof.Claims

/-! ### The numbers of the bank -/

/-- The lookup finds each row of the map by its number. -/
theorem lookup_of_mem_regMap : ∀ p ∈ regMap, regMap.lookup p.1 = some p.2 := by decide

/-- Where the rows of the map stand (R28): the read-only registers first, then the two blocks of read-write ones. -/
theorem regMap_ranges : ∀ p ∈ regMap,
    (p.1.toNat ≤ 0x06 ∧ p.2.writable = false) ∨ (0x08 ≤ p.1.toNat ∧ p.1.toNat ≤ 0x0C) ∨
      (0x10 ≤ p.1.toNat ∧ p.1.toNat ≤ 0x14) := by decide

/-- A number that has a register lies in one of the four ranges of R28, and in the first no register is written. -/
theorem regOf_ranges {P : Params} {r : RegNum} {x : Reg} (h : regOf P r = some x) :
    (r.toNat ≤ 0x06 ∧ x.writable = false) ∨ (0x08 ≤ r.toNat ∧ r.toNat ≤ 0x0C) ∨
      (0x10 ≤ r.toNat ∧ r.toNat ≤ 0x14) ∨ (0x20 ≤ r.toNat ∧ r.toNat < 0x20 + P.nblkMax) := by
  unfold regOf at h
  cases hrow : regMap.lookup r with
  | some y =>
    obtain rfl : y = x := by simpa [hrow] using h
    have hrange := regMap_ranges _ (mem_regMap hrow)
    tauto
  | none =>
    have hblk : 0x20 ≤ r.toNat ∧ r.toNat < 0x20 + P.nblkMax := by
      by_contra hout
      simp [hrow, if_neg hout] at h
    exact .inr (.inr (.inr hblk))

/-- There are no more `BLKDATA` registers than numbers from 0x20 on. -/
theorem default_nblkMax_le : Rom.defaults.nblkMax ≤ 224 := defaultParams_legal.nblkMax.2

/-! ### `WRREG` -/

theorem exec_wrreg_of_regOf {r : RegNum} {x : Reg} (hx : regOf Rom.defaults r = some x) (hw : x.writable = true)
    (v : Len) {s : State} (hs : s.fault = false) :
    exec (.wrreg r v) s = .next (answered (okResponse 0) (s.writeReg v x)) := by
  rw [exec_eq_command, command_wrreg hs hx hw]
  rfl

/-- Every read-write row of the map is written by its number. -/
theorem exec_wrreg_of_mem (v : Len) {s : State} (hs : s.fault = false) :
    ∀ p ∈ regMap, p.2.writable = true →
      exec (.wrreg p.1 v) s = .next (answered (okResponse 0) (s.writeReg v p.2)) :=
  fun p hp hw => exec_wrreg_of_regOf (regOf_of_map (lookup_of_mem_regMap p hp)) hw v hs

theorem exec_wrreg_notWritable {r : RegNum} (h : ∀ x, regOf Rom.defaults r = some x → x.writable = false) (v : Len)
    {s : State} (hs : s.fault = false) : exec (.wrreg r v) s = .next (faulted 2 s) := by
  rw [exec_wrreg, wrregCommand, unlessFaulted_of_clear hs]
  cases hx : regOf Rom.defaults r with
  | none => exact congrArg _ (takeFault_eq_faulted .registerAccess s)
  | some x => simp [h x hx, takeFault_eq_faulted, FaultCause.code]

/-- Settles O41: the written rows are those of the map, and by their ranges no other number has a register to write. -/
theorem wrregResult : Obligations.WrregResult := by
  refine fun v s => ⟨fun _ => rfl, fun hf r => exec_of_fault _ hf, fun hs => ?_⟩
  have row := exec_wrreg_of_mem v hs
  refine ⟨?descriptor, ?parameters, ?blkdata, ?others⟩
  case descriptor =>
    exact ⟨row (0x08, .dcap) (by decide) rfl, row (0x09, .cwcnt) (by decide) rfl, row (0x0A, .nblk) (by decide) rfl,
      row (0x0B, .errcw) (by decide) rfl, row (0x0C, .blkerr) (by decide) rfl⟩
  case parameters =>
    exact ⟨row (0x10, .pCodeoff) (by decide) rfl, row (0x11, .pCodelen) (by decide) rfl,
      row (0x12, .pEccoff) (by decide) rfl, row (0x13, .pEcclen) (by decide) rfl,
      row (0x14, .pStride) (by decide) rfl⟩
  case blkdata =>
    exact fun m h1 hm => exec_wrreg_of_regOf (regOf_blkdata h1 hm default_nblkMax_le) rfl v hs
  case others =>
    refine fun r hr => exec_wrreg_notWritable (fun x hx => ?_) v hs
    rcases regOf_ranges hx with ⟨-, hw⟩ | hin | hin | hin
    · exact hw
    all_goals omega

/-! ### `RDREG` -/

/-- Every row of the map is read by its number. -/
theorem exec_rdreg_of_mem {s : State} (hs : s.fault = false) :
    ∀ rv ∈ regMap.map fun p => (p.1, s.readReg p.2),
      exec (.rdreg rv.1) s = .next (answered (okResponse rv.2) s) :=
  List.forall_mem_map.2 fun p hp => exec_rdreg_of_regOf (regOf_of_map (lookup_of_mem_regMap p hp)) hs

theorem exec_rdreg_unimplemented {r : RegNum} (h : regOf Rom.defaults r = none) {s : State} (hs : s.fault = false) :
    exec (.rdreg r) s = .next (faulted 2 s) := by
  rw [exec_rdreg, rdregCommand, unlessFaulted_of_clear hs, h]
  exact congrArg _ (takeFault_eq_faulted .registerAccess s)

/-- Settles O42: the answers are the map with each register replaced by its value, and the unimplemented numbers are
those outside its ranges. -/
theorem rdregResult : Obligations.RdregResult := by
  refine fun s => ⟨fun _ => rfl, fun hf r => exec_of_fault _ hf,
    fun hs => ⟨exec_rdreg_of_mem hs, fun m v h1 hm hv => ?blkdata, fun r hr => ?unimplemented⟩⟩
  case blkdata =>
    have hread : s.readReg (.blkdata m) = v := by rw [State.readReg, List.getD_eq_getElem?_getD, hv, Option.getD_some]
    rw [exec_rdreg_of_regOf (regOf_blkdata h1 hm default_nblkMax_le) hs, hread]
  case unimplemented =>
    refine exec_rdreg_unimplemented (Option.eq_none_iff_forall_ne_some.2 fun x hx => ?_) hs
    have hrange := regOf_ranges hx
    omega

/-! ### The buffer -/

/-- Settles O44: with `FAULT` clear the command has no check. -/
theorem bufclrResult : Obligations.BufclrResult := fun s =>
  ⟨rfl, fun hs => by rw [exec_eq_command, command_bufclr _ hs]; rfl, exec_of_fault _⟩

theorem exec_bufpush_full {s : State} (hs : s.fault = false) (hfull : s.buf.length = Rom.defaults.bufMax) (v : Byte) :
    exec (.bufpush v) s = .next (faulted 3 s) := by
  rw [exec_bufpush, bufpushCommand, unlessFaulted_of_clear hs, if_pos hfull, takeFault_eq_faulted]
  rfl

/-- Settles O45: whether the buffer is full decides between the two endings. -/
theorem bufpushResult : Obligations.BufpushResult := fun v8 s =>
  ⟨rfl, fun hs hroom => by rw [exec_eq_command, command_bufpush hs hroom]; rfl,
    fun hs hfull => exec_bufpush_full hs hfull v8, exec_of_fault _⟩

theorem exec_bufrd_of_read {s : State} (hs : s.fault = false) {i : Len} {v : Byte} (hv : s.buf.read i.toNat = some v) :
    exec (.bufrd i) s = .next (answered (okResponse (v.setWidth 16)) s) := by
  rw [exec_bufrd, bufrdCommand, unlessFaulted_of_clear hs, hv]
  rfl

theorem exec_bufrd_pastEnd {s : State} (hs : s.fault = false) {i : Len} (hi : s.buf.length ≤ i.toNat) :
    exec (.bufrd i) s = .next (faulted 4 s) := by
  have hnone : s.buf.read i.toNat = none := List.getElem?_eq_none hi
  rw [exec_bufrd, bufrdCommand, unlessFaulted_of_clear hs, hnone]
  exact congrArg _ (takeFault_eq_faulted .indexRange s)

/-- Settles O46: a read of the buffer gives a byte or none, by which the command answers or faults. -/
theorem bufrdResult : Obligations.BufrdResult := fun _ _ =>
  ⟨rfl, fun hs _ hv => exec_bufrd_of_read hs hv, fun hs hi => exec_bufrd_pastEnd hs hi, exec_of_fault _⟩

end Sys2Proof.Machine
end

section
/-! PROOFS. The exceptional endings of a command (spec/60_exceptions.md): which command raises which fault (R224), what
a documented error writes (R226), and that instances share nothing mutable (R234). -/

namespace Sys2Proof.Machine

open Sys2Proof.Config Sys2Proof.Claims

/-! ### Faults -/

/-- The table of R224: the commands that raise a cause. -/
inductive Raises : Instr → FaultCause → Prop
  | wrreg {r v} : Raises (.wrreg r v) .registerAccess
  | rdreg {r} : Raises (.rdreg r) .registerAccess
  | bufpush {v} : Raises (.bufpush v) .bufferCapacity
  | encodeCapacity : Raises .encode .bufferCapacity
  | bufrd {k} : Raises (.bufrd k) .indexRange
  | genrd {k} : Raises (.genrd k) .indexRange
  | eccblkIndex : Raises .eccblk .indexRange
  | encodeIndex : Raises .encode .indexRange
  | eccblkOperand : Raises .eccblk .operandRange
  | encodeOperand : Raises .encode .operandRange

/-- The faults of the checks of R165. -/
theorem raises_of_blockEcc_fault {P : Params} {p : BlockParams} {w : Work} {c : FaultCause}
    (h : blockEcc P p w = .fault c) : Raises .eccblk c := by
  rcases blockEcc_cases P p w with ⟨-, e⟩ | e | e | ⟨-, e⟩ <;> cases e.symm.trans h
  · exact .eccblkOperand
  · exact .eccblkIndex

/-- The faults of the checks of R182. -/
theorem raises_of_symbolEcc_fault {P : Params} {d : Desc} {w : Work} {c : FaultCause}
    (h : symbolEcc P d w = .fault c) : Raises .encode c := by
  rcases symbolEcc_cases P d w with ⟨-, e⟩ | ⟨-, e⟩ | e | e | e | ⟨-, -, e⟩ <;> cases e.symm.trans h
  · exact .encodeOperand
  · exact .encodeCapacity
  · exact .encodeIndex

/-- `ECCBLK` and `ENCODE` fault only where their checks do. -/
theorem exists_fault_of_finishWork {e : Ending Work} {s : State} (hs : s.fault = false)
    (h : (finishWork e s).fault = true) : ∃ c, e = .fault c := by
  cases e with
  | fault c => exact ⟨c, rfl⟩
  | _ => exact absurd (hs.symm.trans h) Bool.false_ne_true

/-- A command that faults takes a fault that R224 lists for it. -/
theorem command_eq_takeFault (P : Params) (i : Instr) {s : State} (hs : s.fault = false)
    (h : (command P i s).fault = true) : ∃ c, Raises i c ∧ command P i s = takeFault c s := by
  have hclear {t : State} (ht : t.fault = s.fault) : t.fault ≠ true := by simp [ht, hs]
  cases i with
  | gfmul | genfind | bufclr => exact absurd h (hclear (command_fault_of_raisesNoFault P rfl s))
  | wrreg r v =>
    simp only [command, wrregCommand, unlessFaulted_of_clear hs] at h ⊢
    split at h
    · next x hx =>
      split at h
      · exact absurd h (hclear (writeReg_fault ..))
      · next hw => exact ⟨_, .wrreg, if_neg hw⟩
    · exact ⟨_, .wrreg, rfl⟩
  | rdreg r =>
    simp only [command, rdregCommand, unlessFaulted_of_clear hs] at h ⊢
    split at h
    · exact absurd h (hclear rfl)
    · exact ⟨_, .rdreg, rfl⟩
  | bufpush v =>
    simp only [command, bufpushCommand, unlessFaulted_of_clear hs] at h ⊢
    split at h
    · next hfull => exact ⟨_, .bufpush, if_pos hfull⟩
    · exact absurd h (hclear rfl)
  | bufrd k =>
    simp only [command, bufrdCommand, unlessFaulted_of_clear hs] at h ⊢
    split at h
    · exact absurd h (hclear rfl)
    · exact ⟨_, .bufrd, rfl⟩
  | genrd k =>
    simp only [command, genrdCommand, unlessFaulted_of_clear hs] at h ⊢
    split at h
    · next hrange => exact ⟨_, .genrd, if_pos hrange⟩
    · exact absurd h (hclear rfl)
  | eccblk =>
    simp only [command, eccblkCommand, unlessFaulted_of_clear hs] at h ⊢
    obtain ⟨c, hc⟩ := exists_fault_of_finishWork hs h
    exact ⟨c, raises_of_blockEcc_fault hc, by rw [hc, finishWork_fault]⟩
  | encode =>
    simp only [command, encodeCommand, unlessFaulted_of_clear hs] at h ⊢
    obtain ⟨c, hc⟩ := exists_fault_of_finishWork hs h
    exact ⟨c, raises_of_symbolEcc_fault hc, by rw [hc, finishWork_fault]⟩

/-- Settles O49: a command that faults takes a fault, and the cause is by the table one of the command's own. -/
theorem faultsChangeNothingElse : Obligations.FaultsChangeNothingElse := by
  intro i s t hs h ht
  obtain rfl : command Rom.defaults i s = t := by simpa [exec_eq_command] using h
  obtain ⟨c, hraises, e⟩ := command_eq_takeFault Rom.defaults i hs ht
  rw [e, takeFault_fcause]
  refine ⟨takeFault_eq_faulted c s, ?_⟩
  cases hraises <;> simp [FaultCause.code]

/-! ### Documented errors -/

/-- The last response has one tag: where it is ERROR the command did not end OK. -/
theorem not_endedOk_of_errorTag {t : State} {r : Word} (hr : t.responses.head? = some r)
    (htag : r.extractLsb' 30 2 = 1#2) : ¬EndedOk t := by
  rintro ⟨r', rest, h, hok⟩
  obtain rfl : r' = r := by simpa [h] using hr
  exact absurd (hok.symm.trans htag) (by decide)

theorem raiseError_eq_mismatch (s : State) :
    raiseError (.codewordCountMismatch s.desc.dcap s.buflen) s =
      { s with
        status := 1, errinfo0 := s.desc.dcap, errinfo1 := s.buflen
        responses := mismatchResponse s.desc.dcap :: s.responses } := by
  rw [raiseError_eq, errorWord_eq_mismatchResponse]
  rfl

/-- Settles O50: of the endings of a command the tag ERROR leaves the four that raise a documented error. -/
theorem errorsChangeStatusOnly : Obligations.ErrorsChangeStatusOnly := by
  intro i s t hs h r hr htag
  have hnok := not_endedOk_of_errorTag hr htag
  cases exec_ends h with
  | answersFault hf => exact absurd (hs.symm.trans hf) Bool.false_ne_true
  | faults =>
    obtain rfl : faultWord _ = r := Option.some.inj hr
    exact absurd ((faultWord_tag _).symm.trans htag) (by decide)
  | encodeMiscounts hne => exact .inl ⟨rfl, hne, raiseError_eq_mismatch s⟩
  | encodeFails hno =>
    rw [raiseError_eq_unsupported]
    by_cases hN : s.desc.nblk = 1
    · rw [Desc.eccLength, if_pos hN] at hno ⊢
      exact .inr (.inl ⟨rfl, hN, hno, rfl⟩)
    · rw [Desc.eccLength, if_neg hN] at hno ⊢
      exact .inr (.inr (.inl ⟨rfl, hN, hno, rfl⟩))
  | eccblkFails hno => exact .inr (.inr (.inr (.inl ⟨rfl, hno, raiseError_eq_unsupported _ _⟩)))
  | genfindFails hno => exact .inr (.inr (.inr (.inr ⟨_, rfl, hno, raiseError_eq_unsupported _ _⟩)))
  | eccblk | encode => exact absurd (endedOk_finishWork ..) hnok
  | _ => exact absurd (endedOk_respondOk ..) hnok

/-! ### Instances -/

/-- A step at `k` changes the list at `k` only. -/
theorem stepAt_eq_modify (k : Nat) (sys : List State) : stepAt k sys = .next (sys.modify k (advance Rom.defaults)) := by
  rw [List.modify_eq_set_getElem?, stepAt]
  cases sys[k]? with
  | none => rfl
  | some s => simp [step_eq_advance]

theorem stepSchedule_pair (j k : Nat) (sys : List State) :
    stepSchedule [j, k] sys =
      .next ((sys.modify j (advance Rom.defaults)).modify k (advance Rom.defaults)) := by
  simp only [stepSchedule, stepAt_eq_modify]

/-- Settles O59: modifications of a list at two different indices do not see each other. -/
theorem instancesAreIndependent : Obligations.InstancesAreIndependent := by
  refine fun sys j k hjk => ⟨fun sys' h => ?_, ?_⟩
  · obtain rfl : sys.modify j (advance Rom.defaults) = sys' := by simpa [stepAt_eq_modify] using h
    exact ⟨List.getElem?_modify_ne _ _ hjk, fun s hs => ⟨_, step_eq_advance s, by simp [hs]⟩⟩
  · rw [stepSchedule_pair, stepSchedule_pair, List.modify_modify_ne _ _ _ hjk]

end Sys2Proof.Machine
end
